-- ==== Sys2Proof/Word.lean ====
section
/-! DEFINITION. The word types of CLOAK64 CORE: every quantity of the block is an unsigned word of a
fixed width (spec/00_scope.md R8). -/

namespace Sys2Proof

/-- A byte: the data unit of the CRC and XOR units and of the header image (R8). -/
abbrev Byte := BitVec 8

/-- A 32-bit word: the CRC register, a header field, an operand word, a response's data (R7). -/
abbrev Word := BitVec 32

/-- A command word, `{op, arg}` (spec/30_encoding.md R42). -/
abbrev CmdWord := BitVec 40

/-- A response word, `{status, data}` (spec/30_encoding.md R45). -/
abbrev RespWord := BitVec 40

/-- The 16-bit image offset operand, of which 0 to 511 are legal (spec/30_encoding.md R43, R44). -/
abbrev Offset := BitVec 16

end Sys2Proof
end

