-- ==== Sys2Proof/Config.lean ====
section
/-! DEFINITION. The implementation parameters of spec/00_scope.md R7. All of them are constants that the
spec fixes; it leaves no value free. The widths of R7 (`CRC_WIDTH`, `KEY_WIDTH`, `FIELD_WIDTH`,
`CMD_WIDTH`, `RESP_WIDTH`, `OFFSET_WIDTH`) are the types of Sys2Proof/Word.lean, and `BYTE_ORDER` is
little-endian throughout (R32). `EXIT_CODE` belongs to the excluded CLI layer (R5). `N_INSTANCES` is the
length of the list that Sys2Proof/Machine/Instances.lean steps. -/

namespace Sys2Proof.Config

/-- `POLY_REFLECTED`, the polynomial the block computes with (R7, spec/40_crc.md R57). -/
def polyReflected : Word := 0xEDB88320#32

/-- `POLY_NORMAL`, the same polynomial most significant bit first (R3, R7, spec/40_crc.md R66). -/
def polyNormal : Word := 0x04C11DB7#32

/-- `CRC_INIT`, the initial register (R7, spec/40_crc.md R57). -/
def crcInit : Word := 0xFFFFFFFF#32

/-- `CRC_XOROUT`, what the register is XORed with on the way out (R7, spec/40_crc.md R57). -/
def crcXorOut : Word := 0xFFFFFFFF#32

/-- `FIELD_COUNT` (R7). -/
def fieldCount : Nat := 4

/-- `HEADER_SIZE`, bytes of a header and of the image (R7, spec/20_memory.md R28). -/
def headerSize : Nat := 512

/-- `FIELDS_BYTES`, the bytes of the four fields, offsets 0x00 to 0x0F (R7). -/
def fieldsBytes : Nat := 16

/-- `PAD_BYTES`, offsets 0x10 to 0x1FF (R7; spec/90_conflicts.md C1: 496, not 492). -/
def padBytes : Nat := 496

/-- The value of header_size that a fresh header carries (spec/10_state.md R18, spec/41_header.md R70). -/
def freshHeaderSize : Word := 0x00000200#32

/-- `DEFAULT_SIGNATURE`, a default of the excluded CLI layer, never applied by the block (R5, R7). -/
def defaultSignature : Word := 0x4D524C41#32

/-- `DEFAULT_KEY`, a default of the excluded CLI layer, never applied by the block (R5, R7). -/
def defaultKey : Byte := 0xB3#8

/-- `MAXLEN`, the longest payload craft is defined for (R7, spec/43_codec.md R97, R106). -/
def maxLen : Nat := 2 ^ 32 - 1

end Sys2Proof.Config
end

