-- ==== Sys2Proof/Syntax.lean ====
section
/-! DEFINITION. The abstract syntax of the block's twelve commands (spec/30_encoding.md R47, R137), one
constructor per row of spec/opcode_table.json, with the operands of R43 and R44. -/

namespace Sys2Proof

/-- The four header fields. `F[0]` is `HSIG`, `F[1]` is `HCSZ`, `F[2]` is `HHSZ`, `F[3]` is `HCHK`
(spec/00_scope.md R9); the names are the assembler's (spec/30_encoding.md R53). -/
inductive Field where
  | sig
  | csz
  | hsz
  | chk
  deriving DecidableEq, Repr

/-- A command of the block, decoded. -/
inductive Instr where
  /-- `CRC.INIT` (spec/40_crc.md R61) -/
  | crcInit
  /-- `CRC.UPD b` (spec/40_crc.md R62) -/
  | crcUpd (b : Byte)
  /-- `CRC.FIN` (spec/40_crc.md R63) -/
  | crcFin
  /-- `HDR.NEW` (spec/41_header.md R70) -/
  | hdrNew
  /-- `HDR.SIG w` (spec/41_header.md R71) -/
  | hdrSig (w : Word)
  /-- `HDR.CSZ w` (spec/41_header.md R72) -/
  | hdrCsz (w : Word)
  /-- `HDR.CHK w` (spec/41_header.md R73) -/
  | hdrChk (w : Word)
  /-- `HDR.RDF k` (spec/41_header.md R74) -/
  | hdrRdf (k : Field)
  /-- `HDR.RDB off` (spec/41_header.md R75) -/
  | hdrRdb (off : Offset)
  /-- `HDR.WRB off, b` (spec/41_header.md R76) -/
  | hdrWrb (off : Offset) (b : Byte)
  /-- `KEY.SET b` (spec/42_cipher.md R82) -/
  | keySet (b : Byte)
  /-- `XOR.B b` (spec/42_cipher.md R83) -/
  | xorB (b : Byte)
  deriving DecidableEq, Repr

/-- The command errors, in the order of their priority (spec/60_exceptions.md R110, R112). -/
inductive CommandError where
  /-- `ERR_OPCODE`: the opcode is not assigned (spec/30_encoding.md R49). -/
  | opcode
  /-- `ERR_OPERAND`: a reserved operand bit is 1 (spec/30_encoding.md R50). -/
  | operand
  /-- `ERR_RANGE`: an image offset of 512 or more (spec/20_memory.md R30, R31). -/
  | range
  deriving DecidableEq, Repr

end Sys2Proof
end

