-- ==== Sys2Proof/WellFormed.lean ====
section
/-! DEFINITION. Which terms of `Instr` are legal commands: the widths of the operands are in their types,
and an image offset is legal when it is at most 511 (spec/30_encoding.md R44). -/

namespace Sys2Proof

/-- An image offset names a location (spec/20_memory.md R28). -/
def offsetLegal (off : Offset) : Bool := off.toNat < Config.headerSize

/-- A legal command (spec/30_encoding.md R44, R48). -/
def Instr.wf : Instr → Bool
  | .crcInit => true
  | .crcUpd _ => true
  | .crcFin => true
  | .hdrNew => true
  | .hdrSig _ => true
  | .hdrCsz _ => true
  | .hdrChk _ => true
  | .hdrRdf _ => true
  | .hdrRdb off => offsetLegal off
  | .hdrWrb off _ => offsetLegal off
  | .keySet _ => true
  | .xorB _ => true

end Sys2Proof
end

