-- ==== Sys2Proof/Decode.lean ====
section
/-! DEFINITION. Decoding a 40-bit command word, and encoding an instruction, both from the tables of
spec/30_encoding.md: the split of R42, the formats of R43, the opcodes of R47, the three checks of R48. -/

namespace Sys2Proof

/-! ## Fields of the command word -/

/-- `op = cmd[39:32]` (R42). -/
def opField (cmd : CmdWord) : BitVec 8 := cmd.extractLsb' 32 8

/-- `arg = cmd[31:0]` (R42). -/
def argField (cmd : CmdWord) : Word := cmd.extractLsb' 0 32

/-- The six operand formats (R43). -/
inductive Format where
  | n
  | b
  | w
  | f
  | a
  | ab
  deriving DecidableEq, Repr

/-- The bits of `arg` that a format marks "zero" (R43, R50). -/
def reservedBits : Format → Word
  | .n => 0xFFFFFFFF#32
  | .b => 0xFFFFFF00#32
  | .w => 0x00000000#32
  | .f => 0xFFFFFFFC#32
  | .a => 0xFFFF0000#32
  | .ab => 0xFF000000#32

/-- The byte operand of formats B and AB, `b = arg[7:0]` (R43). -/
def byteOperand (arg : Word) : Byte := arg.extractLsb' 0 8

/-- The field number of format F, `k = arg[1:0]` (R43). -/
def fieldOperand (arg : Word) : BitVec 2 := arg.extractLsb' 0 2

/-- The offset of format A, `off = arg[15:0]` (R43). -/
def offsetOperandA (arg : Word) : Offset := arg.extractLsb' 0 16

/-- The offset of format AB, `off = arg[23:8]` (R43). -/
def offsetOperandAB (arg : Word) : Offset := arg.extractLsb' 8 16

/-- The field a field number selects: 0 `HSIG`, 1 `HCSZ`, 2 `HHSZ`, 3 `HCHK` (R44, spec/00_scope.md R9). -/
def fieldOfNumber (k : BitVec 2) : Field :=
  if k = 0#2 then .sig else if k = 1#2 then .csz else if k = 2#2 then .hsz else .chk

/-- The number of a field (spec/00_scope.md R9). -/
def numberOfField : Field → BitVec 2
  | .sig => 0#2
  | .csz => 1#2
  | .hsz => 2#2
  | .chk => 3#2

/-! ## The opcode map -/

/-- The twelve assigned opcodes (R47). -/
inductive Op where
  | crcInit
  | crcUpd
  | crcFin
  | hdrNew
  | hdrSig
  | hdrCsz
  | hdrChk
  | hdrRdf
  | hdrRdb
  | hdrWrb
  | keySet
  | xorB
  deriving DecidableEq, Repr

/-- The number of an opcode (R47). -/
def opCode : Op → BitVec 8
  | .crcInit => 0x10#8
  | .crcUpd => 0x11#8
  | .crcFin => 0x12#8
  | .hdrNew => 0x20#8
  | .hdrSig => 0x21#8
  | .hdrCsz => 0x22#8
  | .hdrChk => 0x23#8
  | .hdrRdf => 0x24#8
  | .hdrRdb => 0x25#8
  | .hdrWrb => 0x26#8
  | .keySet => 0x30#8
  | .xorB => 0x31#8

/-- The format of an opcode (R47). -/
def opFormat : Op → Format
  | .crcInit => .n
  | .crcUpd => .b
  | .crcFin => .n
  | .hdrNew => .n
  | .hdrSig => .w
  | .hdrCsz => .w
  | .hdrChk => .w
  | .hdrRdf => .f
  | .hdrRdb => .a
  | .hdrWrb => .ab
  | .keySet => .b
  | .xorB => .b

/-- Every assigned opcode, in the order of R47. -/
def allOps : List Op :=
  [.crcInit, .crcUpd, .crcFin, .hdrNew, .hdrSig, .hdrCsz, .hdrChk, .hdrRdf, .hdrRdb, .hdrWrb, .keySet, .xorB]

/-- Check 1 of R48: the assigned opcode with this number, if there is one. -/
def opOfCode (c : BitVec 8) : Option Op := allOps.find? (fun o => opCode o == c)

/-- The instruction that an opcode and an operand word stand for (R43, R44, R47). -/
def instrOf (o : Op) (arg : Word) : Instr :=
  match o with
  | .crcInit => .crcInit
  | .crcUpd => .crcUpd (byteOperand arg)
  | .crcFin => .crcFin
  | .hdrNew => .hdrNew
  | .hdrSig => .hdrSig arg
  | .hdrCsz => .hdrCsz arg
  | .hdrChk => .hdrChk arg
  | .hdrRdf => .hdrRdf (fieldOfNumber (fieldOperand arg))
  | .hdrRdb => .hdrRdb (offsetOperandA arg)
  | .hdrWrb => .hdrWrb (offsetOperandAB arg) (byteOperand arg)
  | .keySet => .keySet (byteOperand arg)
  | .xorB => .xorB (byteOperand arg)

/-! ## Decoding -/

/-- What a command word decodes to: a legal instruction, or the one command error it raises. -/
inductive Decoded where
  | instr (i : Instr)
  | error (e : CommandError)
  deriving DecidableEq, Repr

/-- Decoding is total and has three checks in this order: assigned opcode, reserved bits zero, offset in
range (R48, spec/60_exceptions.md R112). -/
def decode (cmd : CmdWord) : Decoded :=
  match opOfCode (opField cmd) with
  | none => .error .opcode
  | some o =>
    if argField cmd &&& reservedBits (opFormat o) ≠ 0#32 then .error .operand
    else if (instrOf o (argField cmd)).wf then .instr (instrOf o (argField cmd))
    else .error .range

/-- The instruction that the decoder reads from a row of spec/opcode_table.json filled in: the table
numbers the 40 bits of the command word from its least significant bit, as R42 does. A word longer than
40 bits is no command (R52; log 15). -/
def decodeTableWord (nbits w : Nat) : Option Instr :=
  if 40 < nbits then none
  else
    match decode (BitVec.ofNat 40 (w % 2 ^ nbits)) with
    | .instr i => some i
    | .error _ => none

/-! ## Encoding -/

/-- The opcode of an instruction (R47). -/
def opOfInstr : Instr → Op
  | .crcInit => .crcInit
  | .crcUpd _ => .crcUpd
  | .crcFin => .crcFin
  | .hdrNew => .hdrNew
  | .hdrSig _ => .hdrSig
  | .hdrCsz _ => .hdrCsz
  | .hdrChk _ => .hdrChk
  | .hdrRdf _ => .hdrRdf
  | .hdrRdb _ => .hdrRdb
  | .hdrWrb _ _ => .hdrWrb
  | .keySet _ => .keySet
  | .xorB _ => .xorB

/-- The operand word of an instruction: each operand at the place R43 gives it, zeros elsewhere. -/
def argOfInstr : Instr → Word
  | .crcInit => 0#32
  | .crcUpd b => b.setWidth 32
  | .crcFin => 0#32
  | .hdrNew => 0#32
  | .hdrSig w => w
  | .hdrCsz w => w
  | .hdrChk w => w
  | .hdrRdf k => (numberOfField k).setWidth 32
  | .hdrRdb off => off.setWidth 32
  | .hdrWrb off b => (off.setWidth 32 <<< 8) ||| b.setWidth 32
  | .keySet b => b.setWidth 32
  | .xorB b => b.setWidth 32

/-- The command word with a given opcode number and operand word, `{op, arg}` (R42). -/
def commandWord (op : BitVec 8) (arg : Word) : CmdWord :=
  (op.setWidth 40 <<< 32) ||| arg.setWidth 40

/-- The command word of an instruction (R42, R43, R47). -/
def encode (i : Instr) : CmdWord := commandWord (opCode (opOfInstr i)) (argOfInstr i)

end Sys2Proof
end

