-- ==== Sys2Proof/Machine/State.lean ====
section
/-! DEFINITION. The machine state: the six registers of spec/10_state.md R13, and the two ends of the
command port (what the host will present next, and what the block has answered), which are the host's and
not the block's (R11, R13). -/

namespace Sys2Proof.Machine

/-- The architectural state of one instance: exactly six registers (R13). -/
structure Registers where
  /-- `CRC`, the running CRC register before the final XOR (R14) -/
  crc : Word
  /-- `KEY`, the byte every data byte is XORed with (R15) -/
  key : Byte
  /-- `HSIG`, header field 0, signature (R16) -/
  hsig : Word
  /-- `HCSZ`, header field 1, content_size (R17) -/
  hcsz : Word
  /-- `HHSZ`, header field 2, header_size (R18) -/
  hhsz : Word
  /-- `HCHK`, header field 3, checksum (R19) -/
  hchk : Word
  deriving DecidableEq, Repr

/-- What the host may do to an instance between two commands: present the next command word
(spec/20_memory.md R39), or apply reset (spec/70_reset_and_hazards.md R125). -/
inductive Input where
  | command (cmd : CmdWord)
  | reset
  deriving DecidableEq, Repr

/-- The status of a response (spec/30_encoding.md R46); no other code is ever produced. -/
inductive Status where
  /-- `OK` -/
  | ok
  /-- `ERR_OPCODE` -/
  | errOpcode
  /-- `ERR_OPERAND` -/
  | errOperand
  /-- `ERR_RANGE` -/
  | errRange
  deriving DecidableEq, Repr

/-- One response, `{status, data}` (spec/30_encoding.md R45). -/
structure Response where
  status : Status
  data : Word
  deriving DecidableEq, Repr

/-- The state of the machine. `inputs` (log 1) and `responses` (log 2) are the model's own fields: the
host's side of the command port. No command reads either. -/
structure State where
  /-- the six registers (R13) -/
  regs : Registers
  /-- the host's inputs not yet taken, the next one first (R11, R22, R125) -/
  inputs : List Input
  /-- the responses so far, the oldest first (spec/30_encoding.md R45) -/
  responses : List Response
  deriving DecidableEq, Repr

/-- Why the machine stops with a fault: never. Every command completes in every state, a command error is
a response, and there is no trap (spec/60_exceptions.md R111, R121; spec/70_reset_and_hazards.md R135), so
this type has no constructor (log 5). -/
inductive Fault : Type
  deriving DecidableEq, Repr

/-- Why the machine gives an instruction no meaning. -/
inductive Refusal where
  /-- The instruction is not modelled yet. Raised by an arm of `exec` only; no arm raises it now. Safe. -/
  | notModelled (mnemonic : String)
  deriving DecidableEq, Repr

/-- The registers after reset (R26, spec/70_reset_and_hazards.md R125). -/
def Registers.reset : Registers where
  crc := 0xFFFFFFFF#32
  key := 0x00#8
  hsig := 0x00000000#32
  hcsz := 0x00000000#32
  hhsz := 0x00000200#32
  hchk := 0x00000000#32

/-- The machine right after reset, before the host has presented anything (R26, R128; logs 1 and 2). -/
def State.reset : State where
  regs := Registers.reset
  inputs := []
  responses := []

end Sys2Proof.Machine
end

