-- ==== Sys2Proof/Machine/Operands.lean ====
section
/-! DEFINITION. How an operand selects and shapes a value. The block has one addressing mode: the image
offset, absolute and unsigned (spec/30_encoding.md R44, R137); a field number names a whole field. Here are
the byte lanes of a field (spec/20_memory.md R29, R31) and the field an image offset falls in. -/

namespace Sys2Proof.Machine

/-- `zext_32` of a byte (spec/00_scope.md R8). -/
def zext32 (b : Byte) : Word := b.setWidth 32

/-- Byte lane j of a word, `w[8*j+7 : 8*j]` (spec/20_memory.md R29). -/
def byteLane (w : Word) (j : Nat) : Byte := w.extractLsb' (8 * j) 8

/-- Replace byte lane j of a word (spec/20_memory.md R31). -/
def setByteLane (w : Word) (j : Nat) (b : Byte) : Word :=
  (w &&& ~~~(0xFF#32 <<< (8 * j))) ||| (zext32 b <<< (8 * j))

/-- The field whose bytes stand at image offset a, `F[a >> 2]`; none in the padding (spec/20_memory.md R29). -/
def fieldAtOffset (a : Nat) : Option Field :=
  match a / 4 with
  | 0 => some .sig
  | 1 => some .csz
  | 2 => some .hsz
  | 3 => some .chk
  | _ => none

/-- The byte lane at image offset a, `a & 3` (spec/20_memory.md R29). -/
def laneAtOffset (a : Nat) : Nat := a % 4

/-- The image offset an operand names: the operand as it stands (spec/30_encoding.md R137). -/
def effectiveOffset (off : Offset) : Nat := off.toNat

end Sys2Proof.Machine
end

