-- ==== Sys2Proof/Machine/Flags.lean ====
section
/-! DEFINITION. The block has no flags, condition codes or predicates (spec/10_state.md R23). What other
machines record in flags is here only the status and data of a response, which no later command can read:
the status codes of spec/30_encoding.md R46, the response word of R45, the data field of R56. -/

namespace Sys2Proof.Machine

/-- The code of a status (R46; log 16). -/
def statusCode : Status → BitVec 8
  | .ok => 0x00#8
  | .errOpcode => 0x01#8
  | .errOperand => 0x02#8
  | .errRange => 0x03#8

/-- The status that reports a command error (R46, spec/60_exceptions.md R110). -/
def statusOfError : CommandError → Status
  | .opcode => .errOpcode
  | .operand => .errOperand
  | .range => .errRange

/-- The 40-bit response word, `{status, data}` (R45). -/
def responseWord (r : Response) : RespWord :=
  ((statusCode r.status).setWidth 40 <<< 32) ||| r.data.setWidth 40

/-- The response of a command that has no result: `OK`, data 0 (R56). -/
def okNone : Response := { status := .ok, data := 0#32 }

/-- The response of a command whose result is a word (R56). -/
def okWord (w : Word) : Response := { status := .ok, data := w }

/-- The response of a command whose result is a byte, zero-extended (R56). -/
def okByte (b : Byte) : Response := { status := .ok, data := zext32 b }

/-- The response of a command error: its code, data 0 (R56, spec/60_exceptions.md R111). -/
def errorResponse (e : CommandError) : Response := { status := statusOfError e, data := 0#32 }

end Sys2Proof.Machine
end

