-- ==== Sys2Proof/Machine/Ops.lean ====
section
/-! DEFINITION. The shared operations: register access by name and by field number, the header image and
its two primitives, answering a command, a command error, the command port, and reset. -/

namespace Sys2Proof.Machine

/-! ## Registers -/

/-- `CRC <- v` (spec/00_scope.md R9). -/
def State.setCrc (s : State) (v : Word) : State := { s with regs := { s.regs with crc := v } }

/-- `KEY <- v` (spec/00_scope.md R9). -/
def State.setKey (s : State) (v : Byte) : State := { s with regs := { s.regs with key := v } }

/-- `F[k]` (spec/00_scope.md R9). -/
def Registers.getField (r : Registers) : Field → Word
  | .sig => r.hsig
  | .csz => r.hcsz
  | .hsz => r.hhsz
  | .chk => r.hchk

/-- `F[k] <- v` (spec/00_scope.md R9). -/
def Registers.setField (r : Registers) (k : Field) (v : Word) : Registers :=
  match k with
  | .sig => { r with hsig := v }
  | .csz => { r with hcsz := v }
  | .hsz => { r with hhsz := v }
  | .chk => { r with hchk := v }

/-- `F[k] <- v` on the state (spec/00_scope.md R9). -/
def State.setField (s : State) (k : Field) (v : Word) : State := { s with regs := s.regs.setField k v }

/-! ## The header image -/

/-- `IMG(a)`: a byte lane of a field for offsets 0 to 15, and 0x00 for the padding
(spec/20_memory.md R29). -/
def image (r : Registers) (a : Nat) : Byte :=
  match fieldAtOffset a with
  | some k => byteLane (r.getField k) (laneAtOffset a)
  | none => 0x00#8

/-- `MemRead(a, 1)`: none where there is no location, a >= 512 (spec/20_memory.md R30). -/
def memRead (a : Nat) (s : State) : Option Byte :=
  if a < Config.headerSize then some (image s.regs a) else none

/-- `MemWrite(a, 1, b)`: replaces one byte lane of a field for offsets 0 to 15, discards the byte in the
padding; none where there is no location (spec/20_memory.md R31). -/
def memWrite (a : Nat) (b : Byte) (s : State) : Option State :=
  if a < Config.headerSize then
    match fieldAtOffset a with
    | some k => some (s.setField k (setByteLane (s.regs.getField k) (laneAtOffset a) b))
    | none => some s
  else none

/-! ## Answering -/

/-- Add a response to what the block has answered (spec/30_encoding.md R45). -/
def State.record (s : State) (r : Response) : State := { s with responses := s.responses ++ [r] }

/-- `respond(..)`: ends the command with this response (spec/00_scope.md R9). -/
def respond (r : Response) (s : State) : Host.Outcome State Fault Refusal := .next (s.record r)

/-- `raise <Error>`, the one way a command fails: no register is written, the response carries the error's
code and data 0, and the block is ready for the next command (spec/60_exceptions.md R111). Nothing is
saved, no mode changes and there is nothing to return from (R121, R122). -/
def raiseError (e : CommandError) (s : State) : Host.Outcome State Fault Refusal :=
  respond (errorResponse e) s

/-- The next state of an outcome, if it is one. -/
def nextState (o : Host.Outcome State Fault Refusal) : Option State :=
  match o with
  | .next s => some s
  | .fault _ => none
  | .refused _ => none

/-! ## The command port -/

/-- Take the host's next input, if the host has one (spec/20_memory.md R39; log 1). -/
def takeInput (s : State) : Option (Input × State) :=
  match s.inputs with
  | [] => none
  | x :: rest => some (x, { s with inputs := rest })

/-- The host presents a command word as its next input. -/
def State.present (s : State) (cmd : CmdWord) : State := { s with inputs := .command cmd :: s.inputs }

/-- Reset writes all six registers and answers nothing (spec/70_reset_and_hazards.md R125). The inputs and
the responses are the host's and stay (log 6). -/
def applyReset (s : State) : State := { s with regs := Registers.reset }

end Sys2Proof.Machine
end

