-- ==== Sys2Proof/Machine/Crc.lean ====
section
/-! DEFINITION. The CRC unit: its arithmetic (spec/40_crc.md R57 to R60, and the equal forms R64 to R66)
and the meanings of `CRC.INIT`, `CRC.UPD`, `CRC.FIN` (R61 to R63). -/

namespace Sys2Proof.Machine

/-! ## Arithmetic -/

/-- The bit-reduction step (R59). -/
def crcBit (c : Word) : Word :=
  if c.getLsbD 0 then (c >>> 1) ^^^ Config.polyReflected else c >>> 1

/-- n applications of the bit-reduction step. -/
def crcBits : Nat → Word → Word
  | 0, c => c
  | n + 1, c => crcBits n (crcBit c)

/-- The table entry `T[i]`, a constant function: eight bit-reduction steps on the index (R58; not state,
spec/10_state.md R25). -/
def crcTable (i : Byte) : Word := crcBits 8 (zext32 i)

/-- The byte update of the register (R60). -/
def crcByte (c : Word) (b : Byte) : Word :=
  crcTable ((c ^^^ zext32 b).extractLsb' 0 8) ^^^ (c >>> 8)

/-- One step of the bit-serial form: one data bit (R65). -/
def crcSerialBit (c : Word) (d : Bool) : Word :=
  if (c.getLsbD 0 ^^ d) then (c >>> 1) ^^^ Config.polyReflected else c >>> 1

/-- The bit-serial form: the eight bits of the byte, least significant first (R65). -/
def crcSerial (c : Word) (b : Byte) : Word :=
  (List.range 8).foldl (fun c k => crcSerialBit c (b.getLsbD k)) c

/-- One step of the most-significant-bit-first form, with `POLY_NORMAL` (R66). -/
def crcMsbBit (c : Word) : Word :=
  if c.msb then (c <<< 1) ^^^ Config.polyNormal else c <<< 1

/-- The most-significant-bit-first form: the byte goes bit-reversed into the register's top byte, and the
register shifts left eight times (R66; log 14). The block does not use it. -/
def crcMsbByte (c : Word) (b : Byte) : Word :=
  (List.range 8).foldl (fun c _ => crcMsbBit c) (c ^^^ (zext32 b.reverse <<< 24))

/-! ## Commands -/

/-- `CRC.INIT`: the register takes the initial value (R61). -/
def execCrcInit (s : State) : Host.Outcome State Fault Refusal :=
  respond okNone (s.setCrc Config.crcInit)

/-- `CRC.UPD b`: the register takes one data byte (R62). -/
def execCrcUpd (b : Byte) (s : State) : Host.Outcome State Fault Refusal :=
  respond okNone (s.setCrc (crcByte s.regs.crc b))

/-- `CRC.FIN`: answers the finished checksum and leaves the register as it is (R63). -/
def execCrcFin (s : State) : Host.Outcome State Fault Refusal :=
  respond (okWord (s.regs.crc ^^^ Config.crcXorOut)) s

end Sys2Proof.Machine
end

