-- ==== Sys2Proof/Machine/Hdr.lean ====
section
/-! DEFINITION. The HDR unit: the meanings of `HDR.NEW`, `HDR.SIG`, `HDR.CSZ`, `HDR.CHK`, `HDR.RDF`,
`HDR.RDB`, `HDR.WRB` (spec/41_header.md R70 to R76). -/

namespace Sys2Proof.Machine

/-- `HDR.NEW`: a fresh header, header_size 0x200 and the other fields zero (R70). -/
def execHdrNew (s : State) : Host.Outcome State Fault Refusal :=
  respond okNone
    ((((s.setField .sig 0#32).setField .csz 0#32).setField .hsz Config.freshHeaderSize).setField .chk 0#32)

/-- `HDR.SIG w`: the signature field (R71). -/
def execHdrSig (w : Word) (s : State) : Host.Outcome State Fault Refusal :=
  respond okNone (s.setField .sig w)

/-- `HDR.CSZ w`: the content_size field (R72). -/
def execHdrCsz (w : Word) (s : State) : Host.Outcome State Fault Refusal :=
  respond okNone (s.setField .csz w)

/-- `HDR.CHK w`: the checksum field (R73). -/
def execHdrChk (w : Word) (s : State) : Host.Outcome State Fault Refusal :=
  respond okNone (s.setField .chk w)

/-- `HDR.RDF k`: answers field k as a word (R74). -/
def execHdrRdf (k : Field) (s : State) : Host.Outcome State Fault Refusal :=
  respond (okWord (s.regs.getField k)) s

/-- `HDR.RDB off`: answers one byte of the image, or `ERR_RANGE` for an offset of 512 or more (R75). -/
def execHdrRdb (off : Offset) (s : State) : Host.Outcome State Fault Refusal :=
  match memRead (effectiveOffset off) s with
  | some b => respond (okByte b) s
  | none => raiseError .range s

/-- `HDR.WRB off, b`: writes one byte of the image, or `ERR_RANGE` for an offset of 512 or more (R76). -/
def execHdrWrb (off : Offset) (b : Byte) (s : State) : Host.Outcome State Fault Refusal :=
  match memWrite (effectiveOffset off) b s with
  | some t => respond okNone t
  | none => raiseError .range s

end Sys2Proof.Machine
end

