-- ==== Sys2Proof/Machine/Xor.lean ====
section
/-! DEFINITION. The XOR unit: the meanings of `KEY.SET` and `XOR.B` (spec/42_cipher.md R82, R83). -/

namespace Sys2Proof.Machine

/-- `KEY.SET b`: the key (R82). -/
def execKeySet (b : Byte) (s : State) : Host.Outcome State Fault Refusal :=
  respond okNone (s.setKey b)

/-- `XOR.B b`: answers the byte XORed with the key and keeps nothing (R83, R86). -/
def execXorB (b : Byte) (s : State) : Host.Outcome State Fault Refusal :=
  respond (okByte (b ^^^ s.regs.key)) s

end Sys2Proof.Machine
end

