-- ==== Sys2Proof/Machine/Dispatch.lean ====
section
/-! DEFINITION. The meaning of each instruction, one arm per constructor. -/

namespace Sys2Proof.Machine

def exec (i : Instr) (s : State) : Host.Outcome State Fault Refusal :=
  match i with
  | .crcInit => Sys2Proof.Machine.execCrcInit s
  | .crcUpd b => Sys2Proof.Machine.execCrcUpd b s
  | .crcFin => Sys2Proof.Machine.execCrcFin s
  | .hdrNew => Sys2Proof.Machine.execHdrNew s
  | .hdrSig w => Sys2Proof.Machine.execHdrSig w s
  | .hdrCsz w => Sys2Proof.Machine.execHdrCsz w s
  | .hdrChk w => Sys2Proof.Machine.execHdrChk w s
  | .hdrRdf k => Sys2Proof.Machine.execHdrRdf k s
  | .hdrRdb off => Sys2Proof.Machine.execHdrRdb off s
  | .hdrWrb off b => Sys2Proof.Machine.execHdrWrb off b s
  | .keySet b => Sys2Proof.Machine.execKeySet b s
  | .xorB b => Sys2Proof.Machine.execXorB b s

end Sys2Proof.Machine
end

