-- ==== Sys2Proof/Machine/Step.lean ====
section
/-! DEFINITION. One step of the machine: the block takes the host's next input, whole, before anything
else happens (spec/20_memory.md R39). -/

namespace Sys2Proof.Machine

/-- One step. A command word is decoded and performed, or answered with its command error
(spec/30_encoding.md R48); a reset writes the registers (spec/70_reset_and_hazards.md R125); with no input
the block is idle and nothing changes (spec/60_exceptions.md R124; log 3). -/
def step (s : State) : Host.Outcome State Fault Refusal :=
  match takeInput s with
  | none => .next s
  | some (.reset, s') => .next (applyReset s')
  | some (.command cmd, s') =>
    match decode cmd with
    | .instr i => exec i s'
    | .error e => raiseError e s'

/-- The same state with the host presenting this command word next: the block fetches nothing, so this
stands for the host's giving it the command (spec/10_state.md R22; log 3). -/
def State.withFetchWord (s : State) (nbits w : Nat) : State :=
  s.present (BitVec.ofNat 40 (w % 2 ^ nbits))

end Sys2Proof.Machine
end

