-- ==== Sys2Proof/Machine/Asm.lean ====
section
/-! DEFINITION. The assembler syntax of spec/30_encoding.md R53: one command a line, the mnemonic in
capitals, operands separated by a comma, decimal or `0x` hexadecimal numbers, field names, and comments
from `;` to the end of the line. -/

namespace Sys2Proof.Machine

/-- Drop a comment (R53). -/
def stripComment (l : List Char) : List Char := l.takeWhile (fun c => c != ';')

/-- Drop leading and trailing blanks. -/
def trimBlanks (l : List Char) : List Char :=
  ((l.dropWhile (fun c => c == ' ')).reverse.dropWhile (fun c => c == ' ')).reverse

/-- The value of a digit, of a base up to 16: its place among the digits, the letters capital or small
(log 11). -/
def digitValue (c : Char) : Option Nat :=
  "0123456789ABCDEF".toList.idxOf? c <|> "0123456789abcdef".toList.idxOf? c

/-- The number that digits of a base write, after a number already read. -/
def digitsValue (base : Nat) : List Char → Nat → Option Nat
  | [], n => some n
  | c :: rest, n =>
    match digitValue c with
    | some d => if d < base then digitsValue base rest (base * n + d) else none
    | none => none

/-- A number: decimal, or hexadecimal with the prefix `0x` (R53). -/
def parseNumber (l : List Char) : Option Nat :=
  match l with
  | [] => none
  | ['0', 'x'] => none
  | '0' :: 'x' :: digits => digitsValue 16 digits 0
  | digits => digitsValue 10 digits 0

/-- A number that fits w bits; one that does not is no operand (log 11). -/
def parseOperand (w : Nat) (l : List Char) : Option (BitVec w) :=
  match parseNumber l with
  | some n => if n < 2 ^ w then some (BitVec.ofNat w n) else none
  | none => none

/-- A field number, or a field's name `SIG`, `CSZ`, `HSZ`, `CHK` (R53). -/
def parseField (l : List Char) : Option Field :=
  if l = "SIG".toList then some .sig
  else if l = "CSZ".toList then some .csz
  else if l = "HSZ".toList then some .hsz
  else if l = "CHK".toList then some .chk
  else (parseOperand 2 l).map fieldOfNumber

/-- Split operands at commas, each without blanks around it. -/
def splitOperands : List Char → List (List Char)
  | [] => [[]]
  | c :: rest =>
    if c == ',' then [] :: splitOperands rest
    else
      match splitOperands rest with
      | [] => [[c]]
      | op :: ops => (c :: op) :: ops

/-- The operands after a mnemonic, none if only blanks follow. -/
def operandTexts (l : List Char) : List (List Char) :=
  if trimBlanks l = [] then [] else (splitOperands l).map trimBlanks

/-- The mnemonic of an opcode (R47). -/
def mnemonic : Op → String
  | .crcInit => "CRC.INIT"
  | .crcUpd => "CRC.UPD"
  | .crcFin => "CRC.FIN"
  | .hdrNew => "HDR.NEW"
  | .hdrSig => "HDR.SIG"
  | .hdrCsz => "HDR.CSZ"
  | .hdrChk => "HDR.CHK"
  | .hdrRdf => "HDR.RDF"
  | .hdrRdb => "HDR.RDB"
  | .hdrWrb => "HDR.WRB"
  | .keySet => "KEY.SET"
  | .xorB => "XOR.B"

/-- The instruction that a mnemonic and its operands write, the operands in the order of R47. -/
def assembleOp (o : Op) (operands : List (List Char)) : Option Instr :=
  match o, operands with
  | .crcInit, [] => some .crcInit
  | .crcUpd, [b] => (parseOperand 8 b).map .crcUpd
  | .crcFin, [] => some .crcFin
  | .hdrNew, [] => some .hdrNew
  | .hdrSig, [w] => (parseOperand 32 w).map .hdrSig
  | .hdrCsz, [w] => (parseOperand 32 w).map .hdrCsz
  | .hdrChk, [w] => (parseOperand 32 w).map .hdrChk
  | .hdrRdf, [k] => (parseField k).map .hdrRdf
  | .hdrRdb, [off] => (parseOperand 16 off).map .hdrRdb
  | .hdrWrb, [off, b] =>
    match parseOperand 16 off, parseOperand 8 b with
    | some off, some b => some (.hdrWrb off b)
    | _, _ => none
  | .keySet, [b] => (parseOperand 8 b).map .keySet
  | .xorB, [b] => (parseOperand 8 b).map .xorB
  | _, _ => none

/-- The instruction that a line of assembler text writes, if it writes one (R53; log 11). -/
def assemble (line : String) : Option Instr :=
  let text := trimBlanks (stripComment line.toList)
  let name := text.takeWhile (fun c => c != ' ')
  match allOps.find? (fun o => (mnemonic o).toList == name) with
  | some o => assembleOp o (operandTexts (text.drop name.length))
  | none => none

end Sys2Proof.Machine
end

