-- ==== Sys2Proof/Machine/Codec.lean ====
section
/-! DEFINITION. The source's functions on byte sequences, as plain functions on lists of bytes
(spec/43_codec.md R88 to R101): crc32, xor_transform, pack, parse, craft, uncraft, and their errors
(spec/60_exceptions.md R113). The block does not run these; Sys2Proof/Machine/Composite.lean holds the
command sequences that compute them. -/

namespace Sys2Proof.Machine

/-- The codec error kinds, five distinct constructors with no numbers (spec/60_exceptions.md R113). -/
inductive CodecError where
  /-- craft was given no payload bytes (R114) -/
  | emptyInput
  /-- uncraft was given no container bytes (R115) -/
  | readFailure
  /-- uncraft was given 1 to 512 bytes (R116) -/
  | tooSmall
  /-- the container's signature is not the expected one (R117) -/
  | signatureMismatch
  /-- the collaborator could not persist output bytes; never returned by craft or uncraft (R118) -/
  | writeFailure
  deriving DecidableEq, Repr

/-- The result of craft and uncraft, `Ok(bytes)` or `Err(kind)` (spec/00_scope.md R10). -/
inductive CodecResult where
  | ok (bytes : List Byte)
  | err (kind : CodecError)
  deriving DecidableEq, Repr

/-! ## Byte sequences (spec/00_scope.md R10) -/

/-- `s[i..j]`, the elements i to j - 1. -/
def slice (s : List Byte) (i j : Nat) : List Byte := (s.drop i).take (j - i)

/-- `zeros(n)`. -/
def zeros (n : Nat) : List Byte := List.replicate n 0x00#8

/-- `le32(v)`, the four bytes of a word, least significant first. -/
def le32 (v : Word) : List Byte :=
  [v.extractLsb' 0 8, v.extractLsb' 8 8, v.extractLsb' 16 8, v.extractLsb' 24 8]

/-- `le32dec`: the word whose bytes these are, least significant first. Used on four bytes (log 10). -/
def le32dec (s : List Byte) : Word := s.foldr (fun b acc => (acc <<< 8) ||| zext32 b) 0#32

/-! ## crc32 and xor_transform -/

/-- `fold(data, c)`: the register after the bytes of a message (R88). -/
def crcFold (data : List Byte) (c : Word) : Word :=
  match data with
  | [] => c
  | b :: rest => crcFold rest (crcByte c b)

/-- The function crc32 (R88). -/
def crc32 (data : List Byte) : Word := crcFold data Config.crcInit ^^^ Config.crcXorOut

/-- The same checksum computed most significant bit first with `POLY_NORMAL` (spec/40_crc.md R66): the
final register value is bit-reversed and XORed. -/
def crc32Msb (data : List Byte) : Word :=
  (data.foldl crcMsbByte 0xFFFFFFFF#32).reverse ^^^ 0xFFFFFFFF#32

/-- The function xor_transform (R90). -/
def xorTransform (data : List Byte) (key : Byte) : List Byte := data.map (fun b => b ^^^ key)

/-! ## The header -/

/-- The function pack: the serialised header, always 512 bytes (R92). -/
def pack (sig csz hsz chk : Word) : List Byte :=
  le32 sig ++ le32 csz ++ le32 hsz ++ le32 chk ++ zeros Config.padBytes

/-- The four fields that parse returns (R94). -/
structure ParsedHeader where
  sig : Word
  csz : Word
  hsz : Word
  chk : Word
  deriving DecidableEq, Repr

/-- The function parse, defined for 16 bytes and more; bytes from 16 on are not looked at (R94). -/
def parse (hdr : List Byte) : Option ParsedHeader :=
  if hdr.length < Config.fieldsBytes then none
  else some
    { sig := le32dec (slice hdr 0 4), csz := le32dec (slice hdr 4 8),
      hsz := le32dec (slice hdr 8 12), chk := le32dec (slice hdr 12 16) }

/-! ## craft and uncraft -/

/-- The function craft (R97). No result for a payload longer than `MAXLEN`, for which the spec gives it no
meaning (R106; log 8). -/
def craft (payload : List Byte) (sig : Word) (key : Byte) : Option CodecResult :=
  if payload.length = 0 then some (.err .emptyInput)
  else if Config.maxLen < payload.length then none
  else some (.ok (pack sig (BitVec.ofNat 32 payload.length) Config.freshHeaderSize (crc32 payload)
    ++ xorTransform payload key))

/-- The function uncraft: three checks in this order, the first that fails decides; nothing else of the
header is checked (R99, R100). -/
def uncraft (container : List Byte) (sig : Word) (key : Byte) : CodecResult :=
  if container.length = 0 then .err .readFailure
  else if container.length ≤ Config.headerSize then .err .tooSmall
  else if le32dec (slice container 0 4) ≠ sig then .err .signatureMismatch
  else .ok (xorTransform (container.drop Config.headerSize) key)

end Sys2Proof.Machine
end

