-- ==== Sys2Proof/Machine/Composite.lean ====
section
/-! DEFINITION. The composite operations as the host runs them: sequences of commands given to the block
one after another, with the host carrying data between them (spec/43_codec.md R87 to R101). Each takes the
block's state and answers the operation's result and the state after. `none` stands for no result: the
block did not answer (which no state brings about), or the operation is not defined (R94, R106). One
operation issues only its own commands (spec/70_reset_and_hazards.md R130; log 7). -/

namespace Sys2Proof.Machine

/-- `issue C`: the host presents the command's word, the block steps, the host reads the response (R87). -/
def issue (i : Instr) (s : State) : Option (Response × State) := do
  let t ← nextState (step (s.present (encode i)))
  let r ← t.responses.getLast?
  some (r, t)

/-- Issue commands one after another; the responses in order. -/
def issueAll : List Instr → State → Option (List Response × State)
  | [], s => some ([], s)
  | i :: is, s => do
    let (r, s) ← issue i s
    let (rs, s) ← issueAll is s
    some (r :: rs, s)

/-- `byte(..)`: `data[7:0]` of a response (R87). -/
def responseByte (r : Response) : Byte := r.data.extractLsb' 0 8

/-- Image offsets 0, 1, .., n - 1 as operands. -/
def offsetsBelow (n : Nat) : List Offset := (List.range n).map (BitVec.ofNat 16)

/-- `CRC32 data`; always Ok (R89). -/
def runCrc32 (data : List Byte) (s : State) : Option (Word × State) := do
  let (_, s) ← issue .crcInit s
  let (_, s) ← issueAll (data.map .crcUpd) s
  let (r, s) ← issue .crcFin s
  some (r.data, s)

/-- `XORT data, key`; always Ok (R91). -/
def runXort (data : List Byte) (key : Byte) (s : State) : Option (List Byte × State) := do
  let (_, s) ← issue (.keySet key) s
  let (rs, s) ← issueAll (data.map .xorB) s
  some (rs.map responseByte, s)

/-- `PACK sig, csz, chk`; always Ok (R93). -/
def runPack (sig csz chk : Word) (s : State) : Option (List Byte × State) := do
  let (_, s) ← issueAll [.hdrNew, .hdrSig sig, .hdrCsz csz, .hdrChk chk] s
  let (rs, s) ← issueAll ((offsetsBelow Config.headerSize).map .hdrRdb) s
  some (rs.map responseByte, s)

/-- The sixteen image writes that begin `PARSE` and `UNCRAFT`: byte a of the header to offset a
(R95, R101). -/
def headerWrites (hdr : List Byte) : List Instr :=
  ((offsetsBelow Config.fieldsBytes).zip hdr).map (fun p => .hdrWrb p.1 p.2)

/-- `PARSE hdr`, defined for 16 bytes and more (R95). -/
def runParse (hdr : List Byte) (s : State) : Option (ParsedHeader × State) :=
  if hdr.length < Config.fieldsBytes then none
  else do
    let (_, s) ← issueAll (headerWrites hdr) s
    let (sig, s) ← issue (.hdrRdf .sig) s
    let (csz, s) ← issue (.hdrRdf .csz) s
    let (hsz, s) ← issue (.hdrRdf .hsz) s
    let (chk, s) ← issue (.hdrRdf .chk) s
    some ({ sig := sig.data, csz := csz.data, hsz := hsz.data, chk := chk.data }, s)

/-- `CRAFT payload, sig, key` (R98). The check of the length is the host's and comes before any command
(D32). -/
def runCraft (payload : List Byte) (sig : Word) (key : Byte) (s : State) : Option (CodecResult × State) :=
  if payload.length = 0 then some (.err .emptyInput, s)
  else if Config.maxLen < payload.length then none
  else do
    let (c, s) ← runCrc32 payload s
    let (h, s) ← runPack sig (BitVec.ofNat 32 payload.length) c s
    let (q, s) ← runXort payload key s
    some (.ok (h ++ q), s)

/-- `UNCRAFT container, sig, key` (R101). The checks of the length and the comparison of the signature are
the host's (D31, D32). -/
def runUncraft (container : List Byte) (sig : Word) (key : Byte) (s : State) :
    Option (CodecResult × State) :=
  if container.length = 0 then some (.err .readFailure, s)
  else if container.length ≤ Config.headerSize then some (.err .tooSmall, s)
  else do
    let (_, s) ← issueAll (headerWrites container) s
    let (r, s) ← issue (.hdrRdf .sig) s
    if r.data ≠ sig then some (.err .signatureMismatch, s)
    else do
      let (q, s) ← runXort (container.drop Config.headerSize) key s
      some (.ok q, s)

end Sys2Proof.Machine
end

