-- ==== Sys2Proof/Machine/Instances.lean ====
section
/-! DEFINITION. Several independent instances of the block (spec/00_scope.md R11; `N_INSTANCES`, R7, D28):
a list of states, of which one makes a step. Which one is the hosts' choice (log 12). -/

namespace Sys2Proof.Machine

/-- A step of instance k of several; the others are untouched, for instances share no state
(spec/60_exceptions.md R124). -/
def stepInstance (blocks : List State) (k : Fin blocks.length) :
    Host.Outcome (List State) Fault Refusal :=
  match step blocks[k] with
  | .next t => .next (blocks.set k t)
  | .fault r => .fault r
  | .refused r => .refused r

end Sys2Proof.Machine
end

