-- ==== Sys2Proof/Safety.lean ====
section
/-! DEFINITION. The terms in which claims about the block are stated: the units and their registers, what a
command reads and writes, what a well-formed history of responses is, and the invariant about header_size.
Nothing here is part of a step. -/

namespace Sys2Proof.Machine

/-! ## The rows of spec/opcode_table.json (spec/30_encoding.md R48) -/

/-- The "match" of an opcode's row. -/
def rowMatch : Op → CmdWord
  | .crcInit => 0x1000000000#40
  | .crcUpd => 0x1100000000#40
  | .crcFin => 0x1200000000#40
  | .hdrNew => 0x2000000000#40
  | .hdrSig => 0x2100000000#40
  | .hdrCsz => 0x2200000000#40
  | .hdrChk => 0x2300000000#40
  | .hdrRdf => 0x2400000000#40
  | .hdrRdb => 0x2500000000#40
  | .hdrWrb => 0x2600000000#40
  | .keySet => 0x3000000000#40
  | .xorB => 0x3100000000#40

/-- The "mask" of an opcode's row. -/
def rowMask : Op → CmdWord
  | .crcInit => 0xFFFFFFFFFF#40
  | .crcUpd => 0xFFFFFFFF00#40
  | .crcFin => 0xFFFFFFFFFF#40
  | .hdrNew => 0xFFFFFFFFFF#40
  | .hdrSig => 0xFF00000000#40
  | .hdrCsz => 0xFF00000000#40
  | .hdrChk => 0xFF00000000#40
  | .hdrRdf => 0xFFFFFFFFFC#40
  | .hdrRdb => 0xFFFFFF0000#40
  | .hdrWrb => 0xFFFF000000#40
  | .keySet => 0xFFFFFFFF00#40
  | .xorB => 0xFFFFFFFF00#40

/-- The "opcode_match" of an opcode's row. -/
def rowOpcodeMatch : Op → CmdWord
  | .crcInit => 0x1000000000#40
  | .crcUpd => 0x1100000000#40
  | .crcFin => 0x1200000000#40
  | .hdrNew => 0x2000000000#40
  | .hdrSig => 0x2100000000#40
  | .hdrCsz => 0x2200000000#40
  | .hdrChk => 0x2300000000#40
  | .hdrRdf => 0x2400000000#40
  | .hdrRdb => 0x2500000000#40
  | .hdrWrb => 0x2600000000#40
  | .keySet => 0x3000000000#40
  | .xorB => 0x3100000000#40

/-- The "opcode_mask", the same in every row. -/
def rowOpcodeMask : CmdWord := 0xFF00000000#40

/-! ## Units (spec/00_scope.md R2, spec/10_state.md R13) -/

/-- The three units. -/
inductive HwUnit where
  | crc
  | hdr
  | xor
  deriving DecidableEq, Repr

/-- The unit a command belongs to (spec/30_encoding.md R47). -/
def unitOf : Instr → HwUnit
  | .crcInit => .crc
  | .crcUpd _ => .crc
  | .crcFin => .crc
  | .hdrNew => .hdr
  | .hdrSig _ => .hdr
  | .hdrCsz _ => .hdr
  | .hdrChk _ => .hdr
  | .hdrRdf _ => .hdr
  | .hdrRdb _ => .hdr
  | .hdrWrb _ _ => .hdr
  | .keySet _ => .xor
  | .xorB _ => .xor

/-! ## Registers by name, and the read and write table of spec/10_state.md R20 -/

/-- The six registers by name (R13). -/
inductive RegName where
  | crc
  | key
  | field (k : Field)
  deriving DecidableEq, Repr

/-- The value of a register, zero-extended to 32 bits where it is narrower. -/
def Registers.read (r : Registers) : RegName → Word
  | .crc => r.crc
  | .key => zext32 r.key
  | .field k => r.getField k

/-- The fields whose bytes stand at an image offset: one in 0 to 15, none elsewhere. -/
def fieldsAt (off : Offset) : List RegName :=
  match fieldAtOffset (effectiveOffset off) with
  | some k => [.field k]
  | none => []

/-- R20's column "Written by", turned round: the registers a command writes. -/
def writtenBy : Instr → List RegName
  | .crcInit => [.crc]
  | .crcUpd _ => [.crc]
  | .crcFin => []
  | .hdrNew => [.field .sig, .field .csz, .field .hsz, .field .chk]
  | .hdrSig _ => [.field .sig]
  | .hdrCsz _ => [.field .csz]
  | .hdrChk _ => [.field .chk]
  | .hdrRdf _ => []
  | .hdrRdb _ => []
  | .hdrWrb off _ => fieldsAt off
  | .keySet _ => [.key]
  | .xorB _ => []

/-- R20's column "Read by", turned round: the registers a command reads. -/
def readBy : Instr → List RegName
  | .crcInit => []
  | .crcUpd _ => [.crc]
  | .crcFin => [.crc]
  | .hdrNew => []
  | .hdrSig _ => []
  | .hdrCsz _ => []
  | .hdrChk _ => []
  | .hdrRdf k => [.field k]
  | .hdrRdb off => fieldsAt off
  | .hdrWrb _ _ => []
  | .keySet _ => []
  | .xorB _ => [.key]

/-- Two register files hold the same value in each of these registers. -/
def Registers.agreeOn (r r' : Registers) (names : List RegName) : Prop :=
  ∀ n ∈ names, r.read n = r'.read n

/-! ## The history of responses -/

/-- The commands among inputs: resets answer nothing (spec/70_reset_and_hazards.md R125). -/
def commandCount : List Input → Nat
  | [] => 0
  | .command _ :: rest => commandCount rest + 1
  | .reset :: rest => commandCount rest

/-- A response that carries data only if its status is `OK` (spec/30_encoding.md R56). -/
def Response.wf (r : Response) : Bool := r.status = .ok || r.data = 0#32

/-- Every response so far is of that form. -/
def State.historyWf (s : State) : Prop := ∀ r ∈ s.responses, r.wf = true

/-- Every one of these responses has status `OK`, as those of a well-formed expansion have
(spec/43_codec.md R87). -/
def allOk (rs : List Response) : Prop := ∀ r ∈ rs, r.status = Status.ok

/-- No command so far was answered with an error: a premise over the history, for the block keeps no fault
bit (D11). -/
def State.noErrors (s : State) : Prop := allOk s.responses

/-! ## header_size (spec/10_state.md R18, spec/41_header.md R77) -/

/-- A command word that writes a byte lane of `HHSZ`: `HDR.WRB` at offsets 8 to 11. -/
def writesHeaderSizeByte (cmd : CmdWord) : Bool :=
  match decode cmd with
  | .instr (.hdrWrb off _) => 8 ≤ off.toNat && off.toNat ≤ 11
  | _ => false

/-- `HHSZ` holds 0x200 and the host presents no byte write that could change it. -/
def State.headerSizeInv (s : State) : Prop :=
  s.regs.hhsz = Config.freshHeaderSize ∧
    ∀ cmd, Input.command cmd ∈ s.inputs → writesHeaderSizeByte cmd = false

end Sys2Proof.Machine
end

