-- ==== Sys2Proof/Certificates/Slice0/Obligations.lean ====
section
/-! DEFINITION. The statements about the model that the provers are asked to settle. -/

open Sys2Proof Sys2Proof.Machine

/-! ## Encoding and decoding -/

/-- Words of spec/30_encoding.md, section 6, decode to the commands and errors they stand for. -/
def Obligations.WorkedWordsDecode : Prop :=
  decode 0x1100000061#40 = .instr (.crcUpd 0x61#8) ∧
  decode 0x214D524C41#40 = .instr (.hdrSig 0x4D524C41#32) ∧
  decode 0x2400000002#40 = .instr (.hdrRdf .hsz) ∧
  decode 0x25000001FF#40 = .instr (.hdrRdb 511#16) ∧
  decode 0x260000034D#40 = .instr (.hdrWrb 3#16 0x4D#8) ∧
  decode 0x30000000B3#40 = .instr (.keySet 0xB3#8) ∧
  decode 0x0000000000#40 = .error .opcode ∧
  decode 0x1100000161#40 = .error .operand ∧
  decode 0x2500000200#40 = .error .range

/-- Decoding an encoded legal instruction gives it back, with every operand at every legal value; an
instruction that is not legal has an image offset out of range. -/
def Obligations.DecodeInvertsEncode : Prop :=
  (∀ i : Instr, i.wf = true → decode (encode i) = .instr i) ∧
  (∀ i : Instr, i.wf = false → decode (encode i) = .error .range)

/-- A word that decodes to an instruction is that instruction's encoding, and the instruction is legal: each
legal command has exactly one encoding (spec/92_eei_decisions.md D7). -/
def Obligations.LegalCommandHasOneWord : Prop :=
  ∀ (cmd : CmdWord) (i : Instr), decode cmd = .instr i → encode i = cmd ∧ i.wf = true

/-- R48: each of the four outcomes of decoding, in the terms of the rows of spec/opcode_table.json, and
what a step does then: an error is raised, or the command's rule is performed. -/
def Obligations.DecodeOutcomesByTable : Prop :=
  ∀ cmd : CmdWord,
    (decode cmd = .error .opcode ↔ ∀ o : Op, cmd &&& rowOpcodeMask ≠ rowOpcodeMatch o) ∧
    (decode cmd = .error .operand ↔
      ∃ o : Op, cmd &&& rowOpcodeMask = rowOpcodeMatch o ∧ cmd &&& rowMask o ≠ rowMatch o) ∧
    (decode cmd = .error .range ↔
      (cmd &&& rowMask .hdrRdb = rowMatch .hdrRdb ∧ 512 ≤ (cmd.extractLsb' 0 16).toNat) ∨
      (cmd &&& rowMask .hdrWrb = rowMatch .hdrWrb ∧ 512 ≤ (cmd.extractLsb' 8 16).toNat)) ∧
    (∀ i : Instr, decode cmd = .instr i →
      cmd &&& rowMask (opOfInstr i) = rowMatch (opOfInstr i) ∧ i = instrOf (opOfInstr i) (cmd.extractLsb' 0 32)) ∧
    ∀ s : State,
      (∀ e, decode cmd = .error e → step (s.present cmd) = .next { s with
        responses := s.responses ++ [{ status := statusOfError e, data := 0#32 }] }) ∧
      (∀ i, decode cmd = .instr i → step (s.present cmd) = exec i s)

/-- R49: the 244 unassigned opcodes are answered `ERR_OPCODE` whatever the operand word is, and change no
state; no assigned opcode is. -/
def Obligations.UnassignedOpcodesAnswerErrOpcode : Prop :=
  (∀ (op : BitVec 8) (arg : Word),
    decode (commandWord op arg) = .error .opcode ↔
      op.toNat ≤ 0x0F ∨ (0x13 ≤ op.toNat ∧ op.toNat ≤ 0x1F) ∨ (0x27 ≤ op.toNat ∧ op.toNat ≤ 0x2F) ∨
        0x32 ≤ op.toNat) ∧
  (∀ (s : State) (op : BitVec 8) (arg : Word), decode (commandWord op arg) = .error .opcode →
    step (s.present (commandWord op arg)) =
      .next { s with responses := s.responses ++ [{ status := .errOpcode, data := 0#32 }] }) ∧
  decode 0x0000000000#40 = .error .opcode ∧ decode 0xFFFFFFFFFF#40 = .error .opcode

/-- R50: the reserved bits of each opcode; a command with one of them 1 changes no state and is answered
`ERR_OPERAND`, before any question of range; the opcodes of format W have none. -/
def Obligations.ReservedBitsAnswerErrOperand : Prop :=
  (∀ (op : BitVec 8) (arg : Word),
    decode (commandWord op arg) = .error .operand ↔
      (op ∈ [0x10#8, 0x12#8, 0x20#8] ∧ arg ≠ 0#32) ∨
      (op ∈ [0x11#8, 0x30#8, 0x31#8] ∧ 2 ^ 8 ≤ arg.toNat) ∨
      (op = 0x24#8 ∧ 2 ^ 2 ≤ arg.toNat) ∨
      (op = 0x25#8 ∧ 2 ^ 16 ≤ arg.toNat) ∨
      (op = 0x26#8 ∧ 2 ^ 24 ≤ arg.toNat)) ∧
  (∀ (s : State) (op : BitVec 8) (arg : Word), decode (commandWord op arg) = .error .operand →
    step (s.present (commandWord op arg)) =
      .next { s with responses := s.responses ++ [{ status := .errOperand, data := 0#32 }] })

/-! ## The twelve commands -/

/-- R61, `CRC.INIT`: its effect, its word, and its error for every other operand word. -/
def Obligations.CrcInitStartsMessage : Prop :=
  ∀ s : State,
    exec .crcInit s = .next { s with
      regs := { s.regs with crc := 0xFFFFFFFF#32 }
      responses := s.responses ++ [{ status := .ok, data := 0#32 }] } ∧
    ∀ arg : Word,
      step (s.present (commandWord 0x10#8 arg)) =
        if arg = 0#32 then exec .crcInit s
        else .next { s with responses := s.responses ++ [{ status := .errOperand, data := 0#32 }] }

/-- R62, `CRC.UPD b`: its effect, its words, and its error for every other operand word. -/
def Obligations.CrcUpdTakesByte : Prop :=
  ∀ s : State,
    (∀ b : Byte, exec (.crcUpd b) s = .next { s with
      regs := { s.regs with
        crc := crcTable ((s.regs.crc ^^^ b.setWidth 32).extractLsb' 0 8) ^^^ (s.regs.crc >>> 8) }
      responses := s.responses ++ [{ status := .ok, data := 0#32 }] }) ∧
    ∀ arg : Word,
      step (s.present (commandWord 0x11#8 arg)) =
        if arg.toNat < 2 ^ 8 then exec (.crcUpd (arg.extractLsb' 0 8)) s
        else .next { s with responses := s.responses ++ [{ status := .errOperand, data := 0#32 }] }

/-- R63, `CRC.FIN`: its answer, that it writes nothing, its word, and its error for every other operand
word. -/
def Obligations.CrcFinAnswersChecksum : Prop :=
  ∀ s : State,
    exec .crcFin s = .next { s with
      responses := s.responses ++ [{ status := .ok, data := s.regs.crc ^^^ 0xFFFFFFFF#32 }] } ∧
    ∀ arg : Word,
      step (s.present (commandWord 0x12#8 arg)) =
        if arg = 0#32 then exec .crcFin s
        else .next { s with responses := s.responses ++ [{ status := .errOperand, data := 0#32 }] }

/-- R70, `HDR.NEW`: its effect, its word, its error for every other operand word, the image after it, and
that no other command but byte writes at offsets 8 to 11 changes `HHSZ`. -/
def Obligations.HdrNewMakesFreshHeader : Prop :=
  ∀ s : State,
    exec .hdrNew s = .next { s with
      regs := { s.regs with
        hsig := 0x00000000#32, hcsz := 0x00000000#32, hhsz := 0x00000200#32, hchk := 0x00000000#32 }
      responses := s.responses ++ [{ status := .ok, data := 0#32 }] } ∧
    (∀ arg : Word,
      step (s.present (commandWord 0x20#8 arg)) =
        if arg = 0#32 then exec .hdrNew s
        else .next { s with responses := s.responses ++ [{ status := .errOperand, data := 0#32 }] }) ∧
    (∀ t : State, exec .hdrNew s = .next t →
      ∀ a, a < 512 → memRead a t = some (if a = 9 then 0x02#8 else 0x00#8)) ∧
    ∀ (i : Instr) (t : State), exec i s = .next t → t.regs.hhsz ≠ s.regs.hhsz →
      i = .hdrNew ∨ ∃ off b, i = .hdrWrb off b ∧ 8 ≤ off.toNat ∧ off.toNat ≤ 11

/-- R71, R72, R73, `HDR.SIG w`, `HDR.CSZ w`, `HDR.CHK w`: each stores its operand in its field and nothing
else, and every operand word is legal. -/
def Obligations.HdrWordWritesStoreOperand : Prop :=
  ∀ (s : State) (w : Word),
    (exec (.hdrSig w) s = .next { s with
      regs := { s.regs with hsig := w }
      responses := s.responses ++ [{ status := .ok, data := 0#32 }] } ∧
      step (s.present (commandWord 0x21#8 w)) = exec (.hdrSig w) s) ∧
    (exec (.hdrCsz w) s = .next { s with
      regs := { s.regs with hcsz := w }
      responses := s.responses ++ [{ status := .ok, data := 0#32 }] } ∧
      step (s.present (commandWord 0x22#8 w)) = exec (.hdrCsz w) s) ∧
    (exec (.hdrChk w) s = .next { s with
      regs := { s.regs with hchk := w }
      responses := s.responses ++ [{ status := .ok, data := 0#32 }] } ∧
      step (s.present (commandWord 0x23#8 w)) = exec (.hdrChk w) s)

/-- R74, `HDR.RDF k`: each field number's answer, that it writes nothing, its words, and its error for every
other operand word. -/
def Obligations.HdrRdfAnswersField : Prop :=
  ∀ s : State,
    exec (.hdrRdf .sig) s = .next { s with
      responses := s.responses ++ [{ status := .ok, data := s.regs.hsig }] } ∧
    exec (.hdrRdf .csz) s = .next { s with
      responses := s.responses ++ [{ status := .ok, data := s.regs.hcsz }] } ∧
    exec (.hdrRdf .hsz) s = .next { s with
      responses := s.responses ++ [{ status := .ok, data := s.regs.hhsz }] } ∧
    exec (.hdrRdf .chk) s = .next { s with
      responses := s.responses ++ [{ status := .ok, data := s.regs.hchk }] } ∧
    ∀ arg : Word,
      step (s.present (commandWord 0x24#8 arg)) =
        if arg = 0#32 then exec (.hdrRdf .sig) s
        else if arg = 1#32 then exec (.hdrRdf .csz) s
        else if arg = 2#32 then exec (.hdrRdf .hsz) s
        else if arg = 3#32 then exec (.hdrRdf .chk) s
        else .next { s with responses := s.responses ++ [{ status := .errOperand, data := 0#32 }] }

/-- R75, `HDR.RDB off`: its answer in the image, `ERR_RANGE` beyond it, that it writes nothing, its words,
and its error for every other operand word. -/
def Obligations.HdrRdbAnswersImageByte : Prop :=
  ∀ s : State,
    (∀ off : Offset,
      (off.toNat < 512 → exec (.hdrRdb off) s = .next { s with
        responses := s.responses ++ [{ status := .ok, data := (image s.regs off.toNat).setWidth 32 }] }) ∧
      (512 ≤ off.toNat → exec (.hdrRdb off) s = .next { s with
        responses := s.responses ++ [{ status := .errRange, data := 0#32 }] })) ∧
    ∀ arg : Word,
      step (s.present (commandWord 0x25#8 arg)) =
        if arg.toNat < 2 ^ 16 then exec (.hdrRdb (arg.extractLsb' 0 16)) s
        else .next { s with responses := s.responses ++ [{ status := .errOperand, data := 0#32 }] }

/-- R76, `HDR.WRB off, b`: for an offset up to 15 byte lane `off & 3` of field `off >> 2` becomes b by the
formula of R31, for 16 to 511 nothing changes, beyond it is `ERR_RANGE` with nothing written; its words, its
error for every other operand word, and that no other command but `HDR.NEW` changes `HHSZ`. -/
def Obligations.HdrWrbReplacesByteLane : Prop :=
  ∀ s : State,
    (∀ (off : Offset) (b : Byte) (k : Field), k = fieldOfNumber (BitVec.ofNat 2 (off.toNat / 4)) →
      (off.toNat ≤ 15 → exec (.hdrWrb off b) s = .next { s with
        regs := s.regs.setField k
          ((s.regs.getField k &&& ~~~(0xFF#32 <<< (8 * (off.toNat % 4)))) |||
            (b.setWidth 32 <<< (8 * (off.toNat % 4))))
        responses := s.responses ++ [{ status := .ok, data := 0#32 }] }) ∧
      (16 ≤ off.toNat → off.toNat ≤ 511 → exec (.hdrWrb off b) s = .next { s with
        responses := s.responses ++ [{ status := .ok, data := 0#32 }] }) ∧
      (512 ≤ off.toNat → exec (.hdrWrb off b) s = .next { s with
        responses := s.responses ++ [{ status := .errRange, data := 0#32 }] })) ∧
    (∀ arg : Word,
      step (s.present (commandWord 0x26#8 arg)) =
        if arg.toNat < 2 ^ 24 then exec (.hdrWrb (arg.extractLsb' 8 16) (arg.extractLsb' 0 8)) s
        else .next { s with responses := s.responses ++ [{ status := .errOperand, data := 0#32 }] }) ∧
    ∀ (i : Instr) (t : State), exec i s = .next t → t.regs.hhsz ≠ s.regs.hhsz →
      i = .hdrNew ∨ ∃ off b, i = .hdrWrb off b ∧ 8 ≤ off.toNat ∧ off.toNat ≤ 11

/-- R82, `KEY.SET b`: its effect, its words, its error for every other operand word, and that the key stays
under every other command. -/
def Obligations.KeySetStoresKey : Prop :=
  ∀ s : State,
    (∀ b : Byte, exec (.keySet b) s = .next { s with
      regs := { s.regs with key := b }
      responses := s.responses ++ [{ status := .ok, data := 0#32 }] }) ∧
    (∀ arg : Word,
      step (s.present (commandWord 0x30#8 arg)) =
        if arg.toNat < 2 ^ 8 then exec (.keySet (arg.extractLsb' 0 8)) s
        else .next { s with responses := s.responses ++ [{ status := .errOperand, data := 0#32 }] }) ∧
    ∀ (i : Instr) (t : State), exec i s = .next t → (∀ b, i ≠ .keySet b) → t.regs.key = s.regs.key

/-- R83, `XOR.B b`: its answer, that it writes nothing, its words, and its error for every other operand
word. -/
def Obligations.XorBAnswersByteXorKey : Prop :=
  ∀ s : State,
    (∀ b : Byte, exec (.xorB b) s = .next { s with
      responses := s.responses ++ [{ status := .ok, data := (b ^^^ s.regs.key).setWidth 32 }] }) ∧
    ∀ arg : Word,
      step (s.present (commandWord 0x31#8 arg)) =
        if arg.toNat < 2 ^ 8 then exec (.xorB (arg.extractLsb' 0 8)) s
        else .next { s with responses := s.responses ++ [{ status := .errOperand, data := 0#32 }] }

/-! ## Frames -/

/-- The frame of the commands that store no header byte: `CRC.INIT`, `CRC.UPD`, `CRC.FIN`, `HDR.RDF`,
`HDR.RDB`, `KEY.SET`, `XOR.B`. CRC changes only under `CRC.INIT` and `CRC.UPD`, KEY only under `KEY.SET`,
no field and no image byte under any of them; one response is added, the host's inputs stay. -/
def Obligations.FrameStoresNoHeaderByte : Prop :=
  ∀ (i : Instr) (s t : State),
    (i = .crcInit ∨ (∃ b, i = .crcUpd b) ∨ i = .crcFin ∨ (∃ k, i = .hdrRdf k) ∨ (∃ off, i = .hdrRdb off) ∨
      (∃ b, i = .keySet b) ∨ (∃ b, i = .xorB b)) →
    exec i s = .next t →
      (i ≠ .crcInit → (∀ b, i ≠ .crcUpd b) → t.regs.crc = s.regs.crc) ∧
      ((∀ b, i ≠ .keySet b) → t.regs.key = s.regs.key) ∧
      (∀ k, t.regs.getField k = s.regs.getField k) ∧
      (∀ a, memRead a t = memRead a s) ∧
      t.inputs = s.inputs ∧
      ∃ r, t.responses = s.responses ++ [r]

/-- The frame of `HDR.SIG`, `HDR.CSZ`, `HDR.CHK` and `HDR.NEW`: CRC and KEY stay; the first three change no
field but their own and no image byte outside the four of that field; `HDR.NEW` changes no image byte
outside the sixteen of the fields; one response is added, the host's inputs stay. -/
def Obligations.FrameHeaderWordWrites : Prop :=
  ∀ (i : Instr) (s t : State), exec i s = .next t →
    (∀ (w : Word) (k : Field),
      (i = .hdrSig w ∧ k = .sig) ∨ (i = .hdrCsz w ∧ k = .csz) ∨ (i = .hdrChk w ∧ k = .chk) →
        t.regs.crc = s.regs.crc ∧ t.regs.key = s.regs.key ∧
        (∀ k', k' ≠ k → t.regs.getField k' = s.regs.getField k') ∧
        (∀ a, fieldAtOffset a ≠ some k → memRead a t = memRead a s) ∧
        t.inputs = s.inputs ∧ t.responses = s.responses ++ [{ status := .ok, data := 0#32 }]) ∧
    (i = .hdrNew →
        t.regs.crc = s.regs.crc ∧ t.regs.key = s.regs.key ∧
        (∀ a, fieldAtOffset a = none → memRead a t = memRead a s) ∧
        t.inputs = s.inputs ∧ t.responses = s.responses ++ [{ status := .ok, data := 0#32 }])

/-- The frame of `HDR.WRB off, b`: CRC and KEY stay; every image byte but the one at the offset that the
operand names reads as before; every field but the one that offset falls in stays; one response is added,
the host's inputs stay. -/
def Obligations.FrameImageByteWrite : Prop :=
  ∀ (off : Offset) (b : Byte) (s t : State), exec (.hdrWrb off b) s = .next t →
    t.regs.crc = s.regs.crc ∧ t.regs.key = s.regs.key ∧
    (∀ a, a ≠ effectiveOffset off → memRead a t = memRead a s) ∧
    (∀ k, fieldAtOffset (effectiveOffset off) ≠ some k → t.regs.getField k = s.regs.getField k) ∧
    t.inputs = s.inputs ∧ ∃ r, t.responses = s.responses ++ [r]

/-- R20: a command writes no register whose row does not name it, its response depends on no register
whose row does not name it as read, and what it leaves in the registers it writes depends on nothing but
those and the ones it reads; a command that ends with an error writes nothing. -/
def Obligations.RegisterReadWriteTable : Prop :=
  (∀ (i : Instr) (s t : State), exec i s = .next t →
    ∀ n, n ∉ writtenBy i → t.regs.read n = s.regs.read n) ∧
  (∀ (i : Instr) (s s' t t' : State), exec i s = .next t → exec i s' = .next t' →
    s.regs.agreeOn s'.regs (readBy i) →
      ∃ r, t.responses = s.responses ++ [r] ∧ t'.responses = s'.responses ++ [r]) ∧
  (∀ (i : Instr) (s s' t t' : State), exec i s = .next t → exec i s' = .next t' →
    s.regs.agreeOn s'.regs (readBy i ++ writtenBy i) → t.regs.agreeOn t'.regs (writtenBy i)) ∧
  (∀ (i : Instr) (s t : State) (r : Response), exec i s = .next t → t.responses = s.responses ++ [r] →
    r.status ≠ .ok → t.regs = s.regs)

/-- R77: no command changes `HHSZ` but `HDR.NEW`, which makes it 0x200, and `HDR.WRB` at offsets 8 to 11;
through these it takes any value; and nothing acts on its value: every command has the same effect on the
other registers and the same status whatever it is, and the same response but for the reads of that field. -/
def Obligations.HeaderSizeWritersOnly : Prop :=
  (∀ (i : Instr) (s t : State), exec i s = .next t →
    t.regs.hhsz = s.regs.hhsz ∨ (i = .hdrNew ∧ t.regs.hhsz = 0x200#32) ∨
      ∃ off b, i = .hdrWrb off b ∧ 8 ≤ off.toNat ∧ off.toNat ≤ 11) ∧
  (∀ (s : State) (v : Word), ∃ rs t,
    issueAll [.hdrWrb 8#16 (v.extractLsb' 0 8), .hdrWrb 9#16 (v.extractLsb' 8 8),
      .hdrWrb 10#16 (v.extractLsb' 16 8), .hdrWrb 11#16 (v.extractLsb' 24 8)] s = some (rs, t) ∧
    t.regs = { s.regs with hhsz := v }) ∧
  (∀ (i : Instr) (s : State) (v : Word), ∃ t t' r r',
    exec i s = .next t ∧ exec i { s with regs := { s.regs with hhsz := v } } = .next t' ∧
    t'.regs = { t.regs with hhsz := t'.regs.hhsz } ∧
    t.responses = s.responses ++ [r] ∧ t'.responses = s.responses ++ [r'] ∧ r'.status = r.status ∧
    (i ≠ .hdrRdf .hsz → (∀ off, i = .hdrRdb off → off.toNat < 8 ∨ 11 < off.toNat) → r' = r))

/-! ## Steps, reset, errors -/

/-- A step with a command next that decodes to an instruction is exec of it, at the state without that
command; nothing is added around exec. -/
def Obligations.StepRunsDecodedInstruction : Prop :=
  ∀ (cmd : CmdWord) (i : Instr) (s : State) (rest : List Input),
    s.inputs = .command cmd :: rest → decode cmd = .instr i → step s = exec i { s with inputs := rest }

/-- R111: a command that raises an error writes no register; the response is its code with data 0, and
the block is ready for the next command. The response word of each status (R45, R46): the code in bits 39 to
32, the data in bits 31 to 0; the word that answers each error (R110). -/
def Obligations.CommandErrorChangesNothing : Prop :=
  (∀ (cmd : CmdWord) (e : CommandError) (s : State) (rest : List Input),
    s.inputs = .command cmd :: rest → decode cmd = .error e →
      step s = .next { s with
        inputs := rest
        responses := s.responses ++ [{ status := statusOfError e, data := 0x00000000#32 }] }) ∧
  (∀ (d : Word) (st : Status) (code : BitVec 8),
    (st = .ok ∧ code = 0x00#8) ∨ (st = .errOpcode ∧ code = 0x01#8) ∨ (st = .errOperand ∧ code = 0x02#8) ∨
        (st = .errRange ∧ code = 0x03#8) →
      (responseWord { status := st, data := d }).extractLsb' 32 8 = code ∧
      (responseWord { status := st, data := d }).extractLsb' 0 32 = d) ∧
  responseWord { status := statusOfError .opcode, data := 0#32 } = 0x0100000000#40 ∧
  responseWord { status := statusOfError .operand, data := 0#32 } = 0x0200000000#40 ∧
  responseWord { status := statusOfError .range, data := 0#32 } = 0x0300000000#40

/-- Every step completes, from every state: with a command next it takes it and adds one response, with a
reset next it takes it and adds none, and with nothing next (the model's choice, log 3) nothing changes. -/
def Obligations.EveryStepCompletes : Prop :=
  ∀ s : State, ∃ t, step s = .next t ∧
    (∀ cmd rest, s.inputs = .command cmd :: rest →
      t.inputs = rest ∧ ∃ r, t.responses = s.responses ++ [r]) ∧
    (∀ rest, s.inputs = .reset :: rest → t.inputs = rest ∧ t.responses = s.responses) ∧
    (s.inputs = [] → t = s)

/-- The host's inputs are all taken, in as many steps as there are; the responses are one for each command,
after those already given. -/
def Obligations.RunAnswersEveryCommand : Prop :=
  ∀ s : State, ∃ t, Host.Core.run core s.inputs.length s = .next t ∧ t.inputs = [] ∧
    ∃ rs : List Response, t.responses = s.responses ++ rs ∧ rs.length = commandCount s.inputs

/-- Commands already given are not affected by what comes after: a run over two lists of inputs is the run
over the first, and then the run over the second from the registers it left. -/
def Obligations.RunsCompose : Prop :=
  ∀ (regs : Registers) (xs ys : List Input) (rs : List Response),
    ∃ t : State,
      Host.Core.run core xs.length { regs := regs, inputs := xs, responses := rs } = .next t ∧
      Host.Core.run core (xs.length + ys.length) { regs := regs, inputs := xs ++ ys, responses := rs } =
        Host.Core.run core ys.length { t with inputs := ys }

/-- R125: reset writes all six registers and adds no response, from every state; the three commands
`CRC.INIT`, `KEY.SET 0x00`, `HDR.NEW` leave the same registers. -/
def Obligations.ResetWritesAllRegisters : Prop :=
  ∀ (s : State) (rest : List Input),
    step { s with inputs := .reset :: rest } = .next {
      regs := { crc := 0xFFFFFFFF#32, key := 0x00#8, hsig := 0#32, hcsz := 0#32, hhsz := 0x200#32,
                hchk := 0#32 }
      inputs := rest
      responses := s.responses } ∧
    ∃ t t' : State,
      step { s with inputs := .reset :: rest } = .next t ∧
      Host.Core.run core 3 { s with
        inputs := [Input.command (encode .crcInit), Input.command (encode (.keySet 0x00#8)),
          Input.command (encode .hdrNew)] ++ rest } = .next t' ∧
      t'.regs = t.regs ∧ t'.inputs = t.inputs

/-- R26: the registers after reset, each as its command leaves it, and the header image after reset. -/
def Obligations.ResetStateValues : Prop :=
  State.reset.regs.crc = 0xFFFFFFFF#32 ∧ State.reset.regs.key = 0x00#8 ∧
  State.reset.regs.hsig = 0x00000000#32 ∧ State.reset.regs.hcsz = 0x00000000#32 ∧
  State.reset.regs.hhsz = 0x00000200#32 ∧ State.reset.regs.hchk = 0x00000000#32 ∧
  memRead 9 State.reset = some 0x02#8 ∧
  (∀ a, a < 512 → a ≠ 9 → memRead a State.reset = some 0x00#8) ∧
  ∀ s : State,
    (∃ t, exec .crcInit s = .next t ∧ t.regs.crc = State.reset.regs.crc) ∧
    (∃ t, exec (.keySet 0x00#8) s = .next t ∧ t.regs.key = State.reset.regs.key) ∧
    (∃ t, exec .hdrNew s = .next t ∧ ∀ k, t.regs.getField k = State.reset.regs.getField k)

/-! ## Invariants -/

/-- Every step keeps the form of the history of responses: data is 0 unless the status is `OK` (R56). -/
def Obligations.StepKeepsHistoryForm : Prop :=
  ∀ s t : State, s.historyWf → step s = .next t → t.historyWf

/-- Every step keeps header_size at 0x200 as long as the host presents no byte write at offsets 8 to 11. -/
def Obligations.StepKeepsHeaderSize : Prop :=
  ∀ s t : State, s.headerSizeInv → step s = .next t → t.headerSizeInv

/-- Both invariants hold at reset, with whatever commands the host has next for the first, and with any
that hold no such byte write for the second. That no response is given before the first command is the
model's choice for its own list of responses (log 2), and the first clause rests on it. -/
def Obligations.InvariantsHoldAtReset : Prop :=
  (∀ xs : List Input, State.historyWf { State.reset with inputs := xs }) ∧
  (∀ xs : List Input, (∀ cmd, Input.command cmd ∈ xs → writesHeaderSizeByte cmd = false) →
    State.headerSizeInv { State.reset with inputs := xs })

/-! ## The header image -/

/-- R29: every byte of the image, written out. -/
def Obligations.ImageLayout : Prop :=
  ∀ r : Registers,
    (∀ j, j < 4 →
      image r (0x00 + j) = r.hsig.extractLsb' (8 * j) 8 ∧
      image r (0x04 + j) = r.hcsz.extractLsb' (8 * j) 8 ∧
      image r (0x08 + j) = r.hhsz.extractLsb' (8 * j) 8 ∧
      image r (0x0C + j) = r.hchk.extractLsb' (8 * j) 8) ∧
    (∀ a, 16 ≤ a → a ≤ 511 → image r a = 0x00#8)

/-- R30 and R31: a location exists for offsets 0 to 511 only, and a command that asks for another ends with
`ERR_RANGE`; a byte written to offsets 0 to 15 replaces one lane of one field and reads back, a byte written
to the padding is lost, and no other byte of the image changes. -/
def Obligations.ImageReadAfterWrite : Prop :=
  ∀ (a : Nat) (b : Byte) (s : State),
    (a < 512 → memRead a s = some (image s.regs a)) ∧
    (512 ≤ a → memRead a s = none ∧ memWrite a b s = none ∧
      ∀ off : Offset, effectiveOffset off = a →
        exec (.hdrRdb off) s = .next { s with
          responses := s.responses ++ [{ status := .errRange, data := 0#32 }] } ∧
        exec (.hdrWrb off b) s = .next { s with
          responses := s.responses ++ [{ status := .errRange, data := 0#32 }] }) ∧
    (a < 512 → ∃ t, memWrite a b s = some t ∧
      (a ≤ 15 → memRead a t = some b ∧
        ∀ k, k = fieldOfNumber (BitVec.ofNat 2 (a / 4)) →
          t.regs = s.regs.setField k ((s.regs.getField k &&& ~~~(0xFF#32 <<< (8 * (a % 4)))) |||
            (b.setWidth 32 <<< (8 * (a % 4))))) ∧
      (16 ≤ a → t = s ∧ memRead a t = some 0x00#8) ∧
      (∀ a', a' ≠ a → memRead a' t = memRead a' s) ∧
      t.regs.crc = s.regs.crc ∧ t.regs.key = s.regs.key)

/-- R33: a field written as a word and read as bytes shows the word's little-endian bytes; a field written
as four bytes, in any order, and read as a word shows their little-endian value; a field of which only some
lanes were written shows those lanes and the old values of the others. -/
def Obligations.FieldReadsAsWordAndAsBytes : Prop :=
  (∀ (s : State) (w : Word) (j : Nat), j < 4 → ∃ t1 t2 t3 t4 r1 r2 r3 r4 n0 n1 n2 n3,
    issueAll [.hdrSig w, .hdrRdb (BitVec.ofNat 16 j)] s = some ([okNone, r1], t1) ∧
    issueAll [.hdrCsz w, .hdrRdb (BitVec.ofNat 16 (4 + j))] s = some ([okNone, r2], t2) ∧
    issueAll [.hdrChk w, .hdrRdb (BitVec.ofNat 16 (12 + j))] s = some ([okNone, r3], t3) ∧
    responseByte r1 = byteLane w j ∧ responseByte r2 = byteLane w j ∧ responseByte r3 = byteLane w j ∧
    issueAll [.hdrNew, .hdrRdb (BitVec.ofNat 16 j), .hdrRdb (BitVec.ofNat 16 (4 + j)),
      .hdrRdb (BitVec.ofNat 16 (8 + j)), .hdrRdb (BitVec.ofNat 16 (12 + j))] s = some ([r4, n0, n1, n2, n3], t4) ∧
    responseByte n0 = 0x00#8 ∧ responseByte n1 = 0x00#8 ∧ responseByte n2 = byteLane 0x200#32 j ∧
    responseByte n3 = 0x00#8) ∧
  (∀ (s : State) (k : BitVec 2) (b0 b1 b2 b3 : Byte) (writes : List (Nat × Byte)),
    writes.Perm [(0, b0), (1, b1), (2, b2), (3, b3)] →
      ∃ rs t t', issueAll (writes.map fun p => .hdrWrb (BitVec.ofNat 16 (4 * k.toNat + p.1)) p.2) s = some (rs, t) ∧
        t.regs = s.regs.setField (fieldOfNumber k) (le32dec [b0, b1, b2, b3]) ∧
        issue (.hdrRdf (fieldOfNumber k)) t = some ({ status := .ok, data := le32dec [b0, b1, b2, b3] }, t')) ∧
  (∀ (s : State) (k : BitVec 2) (writes : List (Nat × Byte)),
    (∀ p ∈ writes, p.1 < 4) → (writes.map Prod.fst).Nodup →
      ∃ rs t w, issueAll (writes.map fun p => .hdrWrb (BitVec.ofNat 16 (4 * k.toNat + p.1)) p.2) s = some (rs, t) ∧
        t.regs = s.regs.setField (fieldOfNumber k) w ∧
        (∀ p ∈ writes, byteLane w p.1 = p.2) ∧
        ∀ j, j < 4 → j ∉ writes.map Prod.fst →
          byteLane w j = byteLane (s.regs.getField (fieldOfNumber k)) j)

/-- R78: the 512 bytes of the image are the serialised header. -/
def Obligations.ImageIsSerialisedHeader : Prop :=
  ∀ r : Registers, (List.range 512).map (image r) = pack r.hsig r.hcsz r.hhsz r.hchk

/-- R79, parsing: from any state, after `HDR.WRB i, d[i]` for every i of 16 to 512 bytes d, in any order,
the four fields are the words of d, whatever they held; CRC and KEY stay. -/
def Obligations.ParseByByteWritesAnyOrder : Prop :=
  ∀ (s : State) (d : List Byte) (order : List Nat),
    16 ≤ d.length → d.length ≤ 512 → order.Perm (List.range d.length) →
      ∃ rs t, issueAll (order.map fun i => .hdrWrb (BitVec.ofNat 16 i) (d.getD i 0#8)) s = some (rs, t) ∧
        t.regs = { s.regs with
          hsig := le32dec (slice d 0 4), hcsz := le32dec (slice d 4 8),
          hhsz := le32dec (slice d 8 12), hchk := le32dec (slice d 12 16) }

/-- R79, R94: pack then parse is the identity on the fields; parse then pack is the identity on the first 16
bytes and makes the other 496 zeros. -/
def Obligations.PackParseInverse : Prop :=
  (∀ sig csz hsz chk : Word,
    parse (pack sig csz hsz chk) = some { sig := sig, csz := csz, hsz := hsz, chk := chk }) ∧
  (∀ (d : List Byte) (h : ParsedHeader), parse d = some h →
    pack h.sig h.csz h.hsz h.chk = d.take 16 ++ zeros 496)

/-! ## The CRC unit's arithmetic -/

/-- R64: the table-driven update is eight bit-reduction steps. -/
def Obligations.CrcTableFormIsBitForm : Prop :=
  ∀ (c : Word) (b : Byte), crcByte c b = crcBits 8 (c ^^^ zext32 b)

/-- R65: the bit-serial form gives the same update. -/
def Obligations.CrcSerialFormIsByteForm : Prop :=
  ∀ (c : Word) (b : Byte), crcSerial c b = crcByte c b

/-- The polynomials are bit reversals of each other, the bits of the second, and the
most-significant-bit-first computation gives the same checksum of every message. How that computation takes
a byte is the model's reading of R66 (log 14), so the last clause rests on log 14. -/
def Obligations.CrcMsbFirstGivesSameChecksum : Prop :=
  Config.polyReflected = Config.polyNormal.reverse ∧
  (∀ i, i < 32 → Config.polyReflected.getLsbD i = Config.polyNormal.getLsbD (31 - i)) ∧
  (∀ i, i < 32 → (Config.polyNormal.getLsbD i = true ↔
    i ∈ [26, 23, 22, 16, 12, 11, 10, 8, 7, 5, 4, 2, 1, 0])) ∧
  ∀ data : List Byte, crc32Msb data = crc32 data

/-- R68: under a fixed byte the update is a bijection of the register, and 0 is fixed by a zero byte. -/
def Obligations.CrcUpdateBijective : Prop :=
  (∀ b : Byte, Function.Bijective fun c : Word => crcByte c b) ∧
  crcByte 0x00000000#32 0x00#8 = 0x00000000#32

/-! ## The XOR unit -/

/-- R84: feeding the result of `XOR.B` back through `XOR.B` under the same key returns the byte; and so for
sequences. -/
def Obligations.XorTwiceIsIdentity : Prop :=
  (∀ (s : State) (b : Byte), ∃ r r' t t',
    issue (.xorB b) s = some (r, t) ∧ issue (.xorB (responseByte r)) t = some (r', t') ∧
      responseByte r' = b ∧ t'.regs = s.regs) ∧
  (∀ (data : List Byte) (key : Byte), xorTransform (xorTransform data key) key = data)

/-! ## Composite operations -/

/-- R89: `CRC32` computes crc32 whatever the state before, with len + 2 commands, all answered `OK` (R87),
and changes CRC only. -/
def Obligations.Crc32ExpansionComputesCrc32 : Prop :=
  ∀ (data : List Byte) (s : State), ∃ rs,
    runCrc32 data s = some (crc32 data, { s with
      regs := { s.regs with crc := crcFold data 0xFFFFFFFF#32 }
      responses := s.responses ++ rs }) ∧
    rs.length = data.length + 2 ∧ allOk rs

/-- R91: `XORT` computes xor_transform whatever the state before, with len + 1 commands, all answered `OK`
(R87), and changes KEY only. -/
def Obligations.XortExpansionComputesXorTransform : Prop :=
  ∀ (data : List Byte) (key : Byte) (s : State), ∃ rs,
    runXort data key s = some (xorTransform data key, { s with
      regs := { s.regs with key := key }
      responses := s.responses ++ rs }) ∧
    rs.length = data.length + 1 ∧ allOk rs

/-- R93: `PACK` computes pack with header_size 0x200 whatever the state before, with 516 commands, all
answered `OK` (R87), and changes the four fields only. -/
def Obligations.PackExpansionComputesPack : Prop :=
  ∀ (sig csz chk : Word) (s : State), ∃ rs,
    runPack sig csz chk s = some (pack sig csz 0x200#32 chk, { s with
      regs := { s.regs with hsig := sig, hcsz := csz, hhsz := 0x200#32, hchk := chk }
      responses := s.responses ++ rs }) ∧
    rs.length = 516 ∧ allOk rs

/-- R95: `PARSE` computes parse of 16 bytes or more whatever the state before, with 20 commands, all
answered `OK` (R87), and leaves CRC and KEY; writing bytes of the padding as well changes nothing. -/
def Obligations.ParseExpansionComputesParse : Prop :=
  (∀ (hdr : List Byte) (s : State), 16 ≤ hdr.length → ∃ h rs,
    parse hdr = some h ∧
    runParse hdr s = some (h, { s with
      regs := { s.regs with hsig := h.sig, hcsz := h.csz, hhsz := h.hsz, hchk := h.chk }
      responses := s.responses ++ rs }) ∧
    rs.length = 20 ∧ allOk rs) ∧
  (∀ (a : Nat) (b : Byte) (s : State), 16 ≤ a → a ≤ 511 → ∃ t,
    issue (.hdrWrb (BitVec.ofNat 16 a) b) s = some ({ status := .ok, data := 0#32 }, t) ∧ t.regs = s.regs)

/-- R98: `CRAFT` of 1 to `MAXLEN` bytes computes craft whatever the state before, with 2n + 519 commands,
all answered `OK` (R87), and leaves the registers R98 lists; of no bytes it issues no command. -/
def Obligations.CraftExpansionComputesCraft : Prop :=
  ∀ (payload : List Byte) (sig : Word) (key : Byte) (s : State),
    (payload = [] →
      craft payload sig key = some (.err .emptyInput) ∧
      runCraft payload sig key s = some (.err .emptyInput, s)) ∧
    (payload ≠ [] → payload.length ≤ 2 ^ 32 - 1 → ∃ c rs,
      craft payload sig key = some (.ok c) ∧
      runCraft payload sig key s = some (.ok c, { s with
        regs := { crc := crcFold payload 0xFFFFFFFF#32, key := key, hsig := sig,
                  hcsz := BitVec.ofNat 32 payload.length, hhsz := 0x200#32, hchk := crc32 payload }
        responses := s.responses ++ rs }) ∧
      rs.length = 2 * payload.length + 519 ∧ allOk rs)

/-- R101: `UNCRAFT` computes uncraft whatever the state before: with no command if the container has at most
512 bytes, with 17 commands and no use of the XOR unit if the signature does not match, and with L - 494
commands on success, all answered `OK` (R87); the registers it leaves. -/
def Obligations.UncraftExpansionComputesUncraft : Prop :=
  ∀ (container : List Byte) (sig : Word) (key : Byte) (s : State), ∃ t rs,
    runUncraft container sig key s = some (uncraft container sig key, t) ∧
    t.inputs = s.inputs ∧ t.responses = s.responses ++ rs ∧ allOk rs ∧
    t.regs.crc = s.regs.crc ∧
    (container.length ≤ 512 → t = s) ∧
    (512 < container.length →
      parse container =
        some { sig := t.regs.hsig, csz := t.regs.hcsz, hsz := t.regs.hhsz, chk := t.regs.hchk } ∧
      (uncraft container sig key = .err .signatureMismatch → rs.length = 17 ∧ t.regs.key = s.regs.key) ∧
      (uncraft container sig key ≠ .err .signatureMismatch →
        rs.length = container.length - 494 ∧ t.regs.key = key ∧ t.regs.hsig = sig))

/-- R102: what craft makes, uncraft takes apart, with the same signature and key. -/
def Obligations.CraftUncraftRoundTrip : Prop :=
  ∀ (p : List Byte) (sig : Word) (key : Byte), 1 ≤ p.length → p.length ≤ Config.maxLen →
    ∃ c, craft p sig key = some (.ok c) ∧ uncraft c sig key = .ok p

/-- The round trip through the block: `CRAFT` on one block from any state, then `UNCRAFT` of its result on
any block from any state, gives the payload back. -/
def Obligations.RoundTripThroughTheBlock : Prop :=
  ∀ (p : List Byte) (sig : Word) (key : Byte) (s s' : State), 1 ≤ p.length → p.length ≤ Config.maxLen →
    ∃ c t t', runCraft p sig key s = some (.ok c, t) ∧ runUncraft c sig key s' = some (.ok p, t')

/-- R96: the layout of a container that craft made, and its length in terms of the stored content_size. -/
def Obligations.ContainerLayout : Prop :=
  ∀ (p : List Byte) (sig : Word) (key : Byte) (c : List Byte), craft p sig key = some (.ok c) →
    c.length = 512 + p.length ∧ c.length = 512 + (le32dec (slice c 4 8)).toNat ∧
    c.take 512 = pack sig (BitVec.ofNat 32 p.length) 0x200#32 (crc32 p) ∧
    c.drop 512 = xorTransform p key

/-- R103: two keys give the same header; every byte from offset 512 on differs if the keys do. -/
def Obligations.HeaderIndependentOfKey : Prop :=
  ∀ (p : List Byte) (sig : Word) (key1 key2 : Byte) (c1 c2 : List Byte),
    craft p sig key1 = some (.ok c1) → craft p sig key2 = some (.ok c2) →
      c1.length = c2.length ∧ c1.take 512 = c2.take 512 ∧
      (key1 ≠ key2 → ∀ j, 512 ≤ j → j < c1.length → c1[j]? ≠ c2[j]?)

/-- R114, R106: exactly when craft is an error, then with no command issued, and exactly when it has no
result. -/
def Obligations.CraftErrorsExactly : Prop :=
  ∀ (p : List Byte) (sig : Word) (key : Byte),
    (∀ e, craft p sig key = some (.err e) ↔ e = .emptyInput ∧ p.length = 0) ∧
    (∀ s : State, p.length = 0 → runCraft p sig key s = some (.err .emptyInput, s)) ∧
    (craft p sig key = none ↔ 2 ^ 32 - 1 < p.length) ∧
    (∀ s : State, 2 ^ 32 - 1 < p.length → runCraft p sig key s = none)

/-- R99, R104, R115, R116: exactly when uncraft returns each error, when it succeeds, and with what. -/
def Obligations.UncraftErrorsExactly : Prop :=
  ∀ (container : List Byte) (sig : Word) (key : Byte),
    (uncraft container sig key = .err .readFailure ↔ container.length = 0) ∧
    (uncraft container sig key = .err .tooSmall ↔ 1 ≤ container.length ∧ container.length ≤ 512) ∧
    (uncraft container sig key = .err .signatureMismatch ↔
      512 < container.length ∧ le32dec (slice container 0 4) ≠ sig) ∧
    uncraft container sig key ≠ .err .emptyInput ∧ uncraft container sig key ≠ .err .writeFailure ∧
    (∀ q, uncraft container sig key = .ok q ↔
      512 < container.length ∧ slice container 0 4 = le32 sig ∧ q = xorTransform (container.drop 512) key)

/-- R100: uncraft does not look at bytes 4 to 511 of a container. -/
def Obligations.UncraftIgnoresRestOfHeader : Prop :=
  ∀ (c c' : List Byte) (sig : Word) (key : Byte),
    c.length = c'.length → slice c 0 4 = slice c' 0 4 → c.drop 512 = c'.drop 512 →
      uncraft c sig key = uncraft c' sig key

/-- R129: the result of a composite operation is the same from every two starting states. -/
def Obligations.ResultsIndependentOfStartState : Prop :=
  ∀ s s' : State,
    (∀ data, (runCrc32 data s).map Prod.fst = (runCrc32 data s').map Prod.fst) ∧
    (∀ data key, (runXort data key s).map Prod.fst = (runXort data key s').map Prod.fst) ∧
    (∀ sig csz chk, (runPack sig csz chk s).map Prod.fst = (runPack sig csz chk s').map Prod.fst) ∧
    (∀ hdr, (runParse hdr s).map Prod.fst = (runParse hdr s').map Prod.fst) ∧
    (∀ p sig key, (runCraft p sig key s).map Prod.fst = (runCraft p sig key s').map Prod.fst) ∧
    (∀ c sig key, (runUncraft c sig key s).map Prod.fst = (runUncraft c sig key s').map Prod.fst)

/-! ## Hazards, units, instances -/

/-- R131: a checksum computed without `CRC.INIT` after an earlier message is that of the two joined, and
`CRC.FIN` did not end the first. -/
def Obligations.ChecksumWithoutInitJoinsMessages : Prop :=
  ∀ (a b : List Byte) (s : State), ∃ t rs t' r t'',
    runCrc32 a s = some (crc32 a, t) ∧
    issueAll (b.map .crcUpd) t = some (rs, t') ∧
    issue .crcFin t' = some (r, t'') ∧ r.data = crc32 (a ++ b)

/-- R133: two commands of different units give the same two responses and the same final registers in
either order; within each unit there are two commands whose order matters. -/
def Obligations.UnitsCommute : Prop :=
  (∀ (i j : Instr) (s : State), unitOf i ≠ unitOf j →
    ∃ ri rj t t', issueAll [i, j] s = some ([ri, rj], t) ∧ issueAll [j, i] s = some ([rj, ri], t') ∧
      t.regs = t'.regs ∧ t.inputs = t'.inputs) ∧
  ∀ u : HwUnit, ∃ (i j : Instr) (s t t' : State) (rs rs' : List Response),
    unitOf i = u ∧ unitOf j = u ∧ issueAll [i, j] s = some (rs, t) ∧ issueAll [j, i] s = some (rs', t') ∧
      t.regs ≠ t'.regs

/-- Instances share no state: a step of one completes, is the block's own step, and leaves every other
instance as it was. -/
def Obligations.InstancesIndependent : Prop :=
  ∀ (blocks : List State) (k : Fin blocks.length), ∃ blocks' t,
    stepInstance blocks k = .next blocks' ∧ blocks'.length = blocks.length ∧
    step blocks[k] = .next t ∧ blocks'[k.val]? = some t ∧
    ∀ j, j ≠ k.val → blocks'[j]? = blocks[j]?
end

