-- ==== Sys2Proof/Laws/Decode.lean ====
section
/-! SUPPORT. What the parts of the decoder and of the encoder say of each other. -/

namespace Sys2Proof

@[simp] theorem offsetLegal_eq_true {off : Offset} : offsetLegal off = true ↔ off.toNat < 512 :=
  decide_eq_true_iff

@[simp] theorem offsetLegal_eq_false {off : Offset} : offsetLegal off = false ↔ 512 ≤ off.toNat :=
  decide_eq_false_iff_not.trans Nat.not_lt

@[simp] theorem opField_commandWord (op : BitVec 8) (arg : Word) :
    opField (commandWord op arg) = op := by
  apply BitVec.eq_of_getLsbD_eq
  intro i hi
  have h : 32 + i < 40 := by omega
  simp [opField, commandWord, hi, h]

@[simp] theorem argField_commandWord (op : BitVec 8) (arg : Word) :
    argField (commandWord op arg) = arg := by
  apply BitVec.eq_of_getLsbD_eq
  intro i hi
  have h : i < 40 := by omega
  simp [argField, commandWord, hi, h]

/-- A command word is its opcode and its operand word. -/
theorem commandWord_fields (cmd : CmdWord) : commandWord (opField cmd) (argField cmd) = cmd := by
  apply BitVec.eq_of_getLsbD_eq
  intro i hi
  by_cases h : i < 32
  · simp [opField, argField, commandWord, h, hi]
  · have h8 : i - 32 < 8 := by omega
    have e : 32 + (i - 32) = i := by omega
    simp [opField, argField, commandWord, h, hi, h8, e]

/-- The bits of a command word: the operand word's below, the opcode's above. -/
theorem getLsbD_commandWord (op : BitVec 8) (arg : Word) (n : Nat) :
    (commandWord op arg).getLsbD n = if n < 32 then arg.getLsbD n else op.getLsbD (n - 32) := by
  by_cases h40 : n < 40
  · by_cases h : n < 32
    · simp [commandWord, h, h40]
    · have : arg.getLsbD n = false := BitVec.getLsbD_of_ge _ _ (by omega)
      simp [commandWord, h, h40, this]
  · have h : ¬ n < 32 := by omega
    rw [BitVec.getLsbD_of_ge _ _ (by omega), if_neg h, BitVec.getLsbD_of_ge _ _ (by omega)]

@[simp] theorem opOfCode_opCode (o : Op) : opOfCode (opCode o) = some o := by cases o <;> rfl

/-- The opcode found for a number has that number. -/
theorem opCode_of_opOfCode {c : BitVec 8} {o : Op} (h : opOfCode c = some o) : opCode o = c := by
  have := List.find?_some h
  simpa using this

/-- An opcode number is unassigned exactly when no opcode has it. -/
theorem opOfCode_eq_none {c : BitVec 8} : opOfCode c = none ↔ ∀ o, opCode o ≠ c := by
  constructor
  · intro h o e
    rw [← e, opOfCode_opCode] at h
    cases h
  · intro h
    cases e : opOfCode c with
    | none => rfl
    | some o => exact absurd (opCode_of_opOfCode e) (h o)

@[simp] theorem fieldOfNumber_numberOfField (k : Field) : fieldOfNumber (numberOfField k) = k := by
  cases k <;> rfl

theorem numberOfField_fieldOfNumber (k : BitVec 2) : numberOfField (fieldOfNumber k) = k := by
  revert k; decide

@[simp] theorem byteOperand_zext (b : Byte) : byteOperand (b.setWidth 32) = b := by
  apply BitVec.eq_of_getLsbD_eq
  intro i hi
  have h : i < 32 := by omega
  simp [byteOperand, hi, h]

@[simp] theorem fieldOperand_zext (k : BitVec 2) : fieldOperand (k.setWidth 32) = k := by
  apply BitVec.eq_of_getLsbD_eq
  intro i hi
  have h : i < 32 := by omega
  simp [fieldOperand, hi, h]

@[simp] theorem offsetOperandA_zext (off : Offset) : offsetOperandA (off.setWidth 32) = off := by
  apply BitVec.eq_of_getLsbD_eq
  intro i hi
  have h : i < 32 := by omega
  simp [offsetOperandA, hi, h]

@[simp] theorem byteOperand_offset_byte (off : Offset) (b : Byte) :
    byteOperand ((off.setWidth 32 <<< 8) ||| b.setWidth 32) = b := by
  apply BitVec.eq_of_getLsbD_eq
  intro i hi
  have h : i < 32 := by omega
  simp [byteOperand, hi, h]

@[simp] theorem offsetOperandAB_offset_byte (off : Offset) (b : Byte) :
    offsetOperandAB ((off.setWidth 32 <<< 8) ||| b.setWidth 32) = off := by
  apply BitVec.eq_of_getLsbD_eq
  intro i hi
  have h : 8 + i < 32 := by omega
  simp [offsetOperandAB, hi, h]

/-- The encoder's opcode and operand word stand for the instruction they came from. -/
@[simp] theorem instrOf_argOfInstr (i : Instr) : instrOf (opOfInstr i) (argOfInstr i) = i := by
  cases i <;> simp [instrOf, opOfInstr, argOfInstr]

@[simp] theorem opOfInstr_instrOf (o : Op) (arg : Word) : opOfInstr (instrOf o arg) = o := by
  cases o <;> rfl

/-- A word's bits under a mask are all zero. -/
theorem and_eq_zero_iff {x m : Word} :
    x &&& m = 0#32 ↔ ∀ i, i < 32 → m.getLsbD i = true → x.getLsbD i = false := by
  constructor
  · intro h i hi hm
    have := congrArg (fun v : Word => v.getLsbD i) h
    simpa [hm] using this
  · intro h
    apply BitVec.eq_of_getLsbD_eq
    intro i hi
    cases hm : m.getLsbD i with
    | false => simp [hm]
    | true => simp [h i hi hm]

/-- The encoder writes zeros in the reserved bits. -/
@[simp] theorem argOfInstr_reserved (i : Instr) :
    argOfInstr i &&& reservedBits (opFormat (opOfInstr i)) = 0#32 := by
  cases i with
  | crcInit => rfl
  | crcFin => rfl
  | hdrNew => rfl
  | hdrSig w => simp [reservedBits, opFormat, opOfInstr]
  | hdrCsz w => simp [reservedBits, opFormat, opOfInstr]
  | hdrChk w => simp [reservedBits, opFormat, opOfInstr]
  | hdrRdf k => cases k <;> rfl
  | _ =>
    apply BitVec.eq_of_getLsbD_eq
    intro n hn
    interval_cases n <;> simp [argOfInstr, reservedBits, opFormat, opOfInstr]

/-- Format B with its reserved bits zero is its byte, zero-extended. -/
theorem zext_byteOperand {arg : Word} (h : arg &&& reservedBits .b = 0#32) :
    (byteOperand arg).setWidth 32 = arg := by
  apply BitVec.eq_of_getLsbD_eq
  intro n hn
  have hz := and_eq_zero_iff.mp h n hn
  interval_cases n <;> simp_all [reservedBits, byteOperand]

/-- Format F with its reserved bits zero is its field number, zero-extended. -/
theorem zext_fieldOperand {arg : Word} (h : arg &&& reservedBits .f = 0#32) :
    (fieldOperand arg).setWidth 32 = arg := by
  apply BitVec.eq_of_getLsbD_eq
  intro n hn
  have hz := and_eq_zero_iff.mp h n hn
  interval_cases n <;> simp_all [reservedBits, fieldOperand]

/-- Format A with its reserved bits zero is its offset, zero-extended. -/
theorem zext_offsetOperandA {arg : Word} (h : arg &&& reservedBits .a = 0#32) :
    (offsetOperandA arg).setWidth 32 = arg := by
  apply BitVec.eq_of_getLsbD_eq
  intro n hn
  have hz := and_eq_zero_iff.mp h n hn
  interval_cases n <;> simp_all [reservedBits, offsetOperandA]

/-- Format AB with its reserved bits zero is its offset above its byte. -/
theorem zext_offsetOperandAB {arg : Word} (h : arg &&& reservedBits .ab = 0#32) :
    ((offsetOperandAB arg).setWidth 32 <<< 8) ||| (byteOperand arg).setWidth 32 = arg := by
  apply BitVec.eq_of_getLsbD_eq
  intro n hn
  have hz := and_eq_zero_iff.mp h n hn
  interval_cases n <;> simp_all [reservedBits, offsetOperandAB, byteOperand]

/-- With the reserved bits zero, an operand word is the one the encoder gives its instruction. -/
theorem argOfInstr_instrOf {o : Op} {arg : Word} (h : arg &&& reservedBits (opFormat o) = 0#32) :
    argOfInstr (instrOf o arg) = arg := by
  cases o with
  | crcUpd => exact zext_byteOperand h
  | keySet => exact zext_byteOperand h
  | xorB => exact zext_byteOperand h
  | hdrRdf =>
    simp only [instrOf, argOfInstr, numberOfField_fieldOfNumber]
    exact zext_fieldOperand h
  | hdrRdb => exact zext_offsetOperandA h
  | hdrWrb => exact zext_offsetOperandAB h
  | hdrSig => rfl
  | hdrCsz => rfl
  | hdrChk => rfl
  | _ =>
    have e : arg &&& BitVec.allOnes 32 = 0#32 := h
    rw [BitVec.and_allOnes] at e
    simp [instrOf, argOfInstr, e]

/-- What the decoder answers, on a word given by its opcode and operand word. -/
theorem decode_commandWord (o : Op) (arg : Word) :
    decode (commandWord (opCode o) arg) =
      if arg &&& reservedBits (opFormat o) ≠ 0#32 then .error .operand
      else if (instrOf o arg).wf then .instr (instrOf o arg)
      else .error .range := by
  simp [decode]

/-- An unassigned opcode is an error whatever the operand word is. -/
theorem decode_unassigned {op : BitVec 8} (arg : Word) (h : ∀ o, opCode o ≠ op) :
    decode (commandWord op arg) = .error .opcode := by
  simp [decode, opOfCode_eq_none.mpr h]

/-- Where an instruction was decoded, the word is its opcode and operand word. -/
theorem decode_instr_inv {cmd : CmdWord} {i : Instr} (h : decode cmd = .instr i) :
    ∃ o, cmd = commandWord (opCode o) (argField cmd) ∧
      argField cmd &&& reservedBits (opFormat o) = 0#32 ∧ i = instrOf o (argField cmd) ∧ i.wf = true := by
  unfold decode at h
  cases ho : opOfCode (opField cmd) with
  | none => simp [ho] at h
  | some o =>
    rw [ho] at h
    dsimp only at h
    split at h
    · cases h
    · rename_i hres
      split at h
      · rename_i hwf
        cases h
        refine ⟨o, ?_, by simpa using hres, rfl, hwf⟩
        rw [opCode_of_opOfCode ho, commandWord_fields]
      · cases h

end Sys2Proof
end

