-- ==== Sys2Proof/Laws/State.lean ====
section
/-! SUPPORT. One lemma per field per update of the state, so that no proof unfolds a record update. -/

namespace Sys2Proof.Machine

@[simp] theorem setCrc_crc (s : State) (v : Word) : (s.setCrc v).regs.crc = v := rfl
@[simp] theorem setCrc_key (s : State) (v : Word) : (s.setCrc v).regs.key = s.regs.key := rfl
@[simp] theorem setCrc_getField (s : State) (v : Word) (k : Field) :
    (s.setCrc v).regs.getField k = s.regs.getField k := rfl
@[simp] theorem setCrc_inputs (s : State) (v : Word) : (s.setCrc v).inputs = s.inputs := rfl
@[simp] theorem setCrc_responses (s : State) (v : Word) : (s.setCrc v).responses = s.responses := rfl

@[simp] theorem setKey_crc (s : State) (v : Byte) : (s.setKey v).regs.crc = s.regs.crc := rfl
@[simp] theorem setKey_key (s : State) (v : Byte) : (s.setKey v).regs.key = v := rfl
@[simp] theorem setKey_getField (s : State) (v : Byte) (k : Field) :
    (s.setKey v).regs.getField k = s.regs.getField k := rfl
@[simp] theorem setKey_inputs (s : State) (v : Byte) : (s.setKey v).inputs = s.inputs := rfl
@[simp] theorem setKey_responses (s : State) (v : Byte) : (s.setKey v).responses = s.responses := rfl

@[simp] theorem regs_setField_crc (r : Registers) (k : Field) (v : Word) :
    (r.setField k v).crc = r.crc := by cases k <;> rfl
@[simp] theorem regs_setField_key (r : Registers) (k : Field) (v : Word) :
    (r.setField k v).key = r.key := by cases k <;> rfl
@[simp] theorem regs_setField_getField (r : Registers) (k : Field) (v : Word) :
    (r.setField k v).getField k = v := by cases k <;> rfl
theorem regs_setField_getField_ne (r : Registers) {k k' : Field} (v : Word) (h : k' ≠ k) :
    (r.setField k v).getField k' = r.getField k' := by
  cases k <;> cases k' <;> first | rfl | exact absurd rfl h

@[simp] theorem setField_regs (s : State) (k : Field) (v : Word) :
    (s.setField k v).regs = s.regs.setField k v := rfl
@[simp] theorem setField_inputs (s : State) (k : Field) (v : Word) :
    (s.setField k v).inputs = s.inputs := rfl
@[simp] theorem setField_responses (s : State) (k : Field) (v : Word) :
    (s.setField k v).responses = s.responses := rfl

@[simp] theorem record_regs (s : State) (r : Response) : (s.record r).regs = s.regs := rfl
@[simp] theorem record_inputs (s : State) (r : Response) : (s.record r).inputs = s.inputs := rfl
@[simp] theorem record_responses (s : State) (r : Response) :
    (s.record r).responses = s.responses ++ [r] := rfl

@[simp] theorem present_regs (s : State) (cmd : CmdWord) : (s.present cmd).regs = s.regs := rfl
@[simp] theorem present_inputs (s : State) (cmd : CmdWord) :
    (s.present cmd).inputs = .command cmd :: s.inputs := rfl
@[simp] theorem present_responses (s : State) (cmd : CmdWord) :
    (s.present cmd).responses = s.responses := rfl

@[simp] theorem applyReset_regs (s : State) : (applyReset s).regs = Registers.reset := rfl
@[simp] theorem applyReset_inputs (s : State) : (applyReset s).inputs = s.inputs := rfl
@[simp] theorem applyReset_responses (s : State) : (applyReset s).responses = s.responses := rfl

/-- Two register files are equal when CRC, KEY and the four fields are. -/
theorem registers_ext {r r' : Registers} (hc : r.crc = r'.crc) (hk : r.key = r'.key)
    (hf : ∀ k, r.getField k = r'.getField k) : r = r' := by
  have h0 : r.hsig = r'.hsig := hf .sig
  have h1 : r.hcsz = r'.hcsz := hf .csz
  have h2 : r.hhsz = r'.hhsz := hf .hsz
  have h3 : r.hchk = r'.hchk := hf .chk
  cases r; cases r'; simp_all

end Sys2Proof.Machine
end

