-- ==== Sys2Proof/Laws/Ops.lean ====
section
/-! SUPPORT. The shared operations, each said once: byte lanes, the header image and its two primitives,
answering, the command port. -/

namespace Sys2Proof.Machine

/-! ## Byte lanes -/

/-- The lane just written reads as the byte written (spec/20_memory.md R31). -/
theorem byteLane_setByteLane_same (w : Word) {j : Nat} (hj : j < 4) (b : Byte) :
    byteLane (setByteLane w j b) j = b := by
  apply BitVec.eq_of_getLsbD_eq
  intro i hi
  interval_cases j <;> interval_cases i <;> simp [byteLane, setByteLane, zext32]

/-- The other lanes keep their values (spec/20_memory.md R31). -/
theorem byteLane_setByteLane_ne (w : Word) {j j' : Nat} (hj : j < 4) (hj' : j' < 4) (h : j' ≠ j)
    (b : Byte) : byteLane (setByteLane w j b) j' = byteLane w j' := by
  apply BitVec.eq_of_getLsbD_eq
  intro i hi
  interval_cases j <;> interval_cases j' <;>
    first
    | exact absurd rfl h
    | (interval_cases i <;> simp [byteLane, setByteLane, zext32])

/-- A word is determined by its four byte lanes. -/
theorem word_ext_lanes {w w' : Word} (h : ∀ j < 4, byteLane w j = byteLane w' j) : w = w' := by
  apply BitVec.eq_of_getLsbD_eq
  intro i hi
  have e := congrArg (fun v : Byte => v.getLsbD (i % 8)) (h (i / 8) (by omega))
  have h8 : i % 8 < 8 := by omega
  have hi' : 8 * (i / 8) + i % 8 = i := by omega
  simpa [byteLane, h8, hi'] using e

/-- The lanes of a field word are what its image bytes are made of: offset 4k + j is lane j of field k. -/
theorem fieldAtOffset_lt {a : Nat} (h : a < 16) : ∃ k, fieldAtOffset a = some k := by
  interval_cases a <;> exact ⟨_, rfl⟩

/-- There is no field in the padding (spec/20_memory.md R29). -/
theorem fieldAtOffset_padding {a : Nat} (h : 16 ≤ a) : fieldAtOffset a = none := by
  have : 4 ≤ a / 4 := by omega
  unfold fieldAtOffset
  split <;> first | omega | rfl

theorem laneAtOffset_lt (a : Nat) : laneAtOffset a < 4 := Nat.mod_lt _ (by decide)

/-- Two offsets in one field with the same lane are the same offset. -/
theorem offset_unique {a a' : Nat} {k : Field} (h : fieldAtOffset a = some k)
    (h' : fieldAtOffset a' = some k) (hl : laneAtOffset a = laneAtOffset a') : a = a' := by
  have ha : a < 16 := by
    by_contra hc
    rw [fieldAtOffset_padding (by omega)] at h; cases h
  have ha' : a' < 16 := by
    by_contra hc
    rw [fieldAtOffset_padding (by omega)] at h'; cases h'
  rw [← h'] at h
  clear h'
  revert h hl
  unfold laneAtOffset
  interval_cases a <;> interval_cases a' <;> simp [fieldAtOffset]

/-! ## The header image -/

theorem image_field {r : Registers} {a : Nat} {k : Field} (h : fieldAtOffset a = some k) :
    image r a = byteLane (r.getField k) (laneAtOffset a) := by simp [image, h]

@[simp] theorem image_padding (r : Registers) {a : Nat} (h : 16 ≤ a) : image r a = 0x00#8 := by
  simp [image, fieldAtOffset_padding h]

/-- The image is made of the fields alone. -/
theorem image_congr {r r' : Registers} (h : ∀ k, r.getField k = r'.getField k) (a : Nat) :
    image r a = image r' a := by simp [image, h]

/-- Writing a field changes no image byte of another field. -/
theorem image_setField_ne (r : Registers) (k : Field) (v : Word) {a : Nat}
    (h : fieldAtOffset a ≠ some k) : image (r.setField k v) a = image r a := by
  unfold image
  cases e : fieldAtOffset a with
  | none => rfl
  | some k' =>
    have hk : k' ≠ k := fun hk => h (by rw [e, hk])
    simp [regs_setField_getField_ne r v hk]

theorem memRead_lt {a : Nat} (h : a < 512) (s : State) : memRead a s = some (image s.regs a) := by
  simp [memRead, Config.headerSize, h]

theorem memRead_ge {a : Nat} (h : 512 ≤ a) (s : State) : memRead a s = none := by
  simp [memRead, Config.headerSize, Nat.not_lt.mpr h]

theorem memRead_congr {s s' : State} (h : ∀ k, s.regs.getField k = s'.regs.getField k) (a : Nat) :
    memRead a s = memRead a s' := by simp [memRead, image_congr h]

/-- Everything a byte write can do: there is no location, the byte is discarded, or one lane of one field
is replaced (spec/20_memory.md R31). -/
theorem memWrite_cases (a : Nat) (b : Byte) (s : State) :
    (512 ≤ a ∧ memWrite a b s = none) ∨
    (16 ≤ a ∧ a < 512 ∧ memWrite a b s = some s) ∨
    (∃ k, fieldAtOffset a = some k ∧ a < 16 ∧
      memWrite a b s = some (s.setField k (setByteLane (s.regs.getField k) (laneAtOffset a) b))) := by
  by_cases h512 : a < 512
  · by_cases h16 : a < 16
    · obtain ⟨k, hk⟩ := fieldAtOffset_lt h16
      exact .inr (.inr ⟨k, hk, h16, by simp [memWrite, Config.headerSize, h512, hk]⟩)
    · exact .inr (.inl ⟨by omega, h512, by
        simp [memWrite, Config.headerSize, h512, fieldAtOffset_padding (Nat.not_lt.mp h16)]⟩)
  · exact .inl ⟨by omega, by simp [memWrite, Config.headerSize, h512]⟩

/-- The image after one lane of a field is replaced. -/
theorem image_setByteLane (r : Registers) {a : Nat} {k : Field} (h : fieldAtOffset a = some k) (b : Byte)
    (a' : Nat) :
    image (r.setField k (setByteLane (r.getField k) (laneAtOffset a) b)) a' =
      if a' = a then b else image r a' := by
  by_cases e : fieldAtOffset a' = some k
  · rw [image_field e, image_field e, regs_setField_getField]
    by_cases haa : a' = a
    · subst haa
      simp [byteLane_setByteLane_same _ (laneAtOffset_lt _)]
    · have hl : laneAtOffset a' ≠ laneAtOffset a := fun hl => haa (offset_unique e h hl)
      simp [haa, byteLane_setByteLane_ne _ (laneAtOffset_lt a) (laneAtOffset_lt a') hl]
  · have haa : a' ≠ a := fun haa => e (by rw [haa, h])
    simp [haa, image_setField_ne r k _ e]

/-! ## Answering and the command port -/

@[simp] theorem respond_eq (r : Response) (s : State) : respond r s = .next (s.record r) := rfl

@[simp] theorem raiseError_eq (e : CommandError) (s : State) :
    raiseError e s = .next (s.record (errorResponse e)) := rfl

@[simp] theorem nextState_next (s : State) : nextState (.next s) = some s := rfl

theorem nextState_eq_some {o : Host.Outcome State Fault Refusal} {t : State} :
    nextState o = some t ↔ o = .next t := by
  cases o <;> simp [nextState]

@[simp] theorem takeInput_cons (s : State) (x : Input) (rest : List Input) :
    takeInput { s with inputs := x :: rest } = some (x, { s with inputs := rest }) := rfl

@[simp] theorem takeInput_present (s : State) (cmd : CmdWord) :
    takeInput (s.present cmd) = some (.command cmd, s) := rfl

end Sys2Proof.Machine
end

