-- ==== Sys2Proof/Laws/Step.lean ====
section
/-! SUPPORT. What an instruction and a step do, said once: every instruction goes to a next state in which
the registers are `effect i`, one response `answer i` is added, and the inputs are as before. -/

namespace Sys2Proof.Laws

open Sys2Proof.Machine

/-- The registers after a command. -/
def effect (i : Instr) (r : Registers) : Registers :=
  match i with
  | .crcInit => { r with crc := Config.crcInit }
  | .crcUpd b => { r with crc := crcByte r.crc b }
  | .crcFin => r
  | .hdrNew => { r with hsig := 0#32, hcsz := 0#32, hhsz := Config.freshHeaderSize, hchk := 0#32 }
  | .hdrSig w => { r with hsig := w }
  | .hdrCsz w => { r with hcsz := w }
  | .hdrChk w => { r with hchk := w }
  | .hdrRdf _ => r
  | .hdrRdb _ => r
  | .hdrWrb off b =>
    match fieldAtOffset (effectiveOffset off) with
    | some k => r.setField k (setByteLane (r.getField k) (laneAtOffset (effectiveOffset off)) b)
    | none => r
  | .keySet b => { r with key := b }
  | .xorB _ => r

/-- A byte write in the padding or beyond it leaves the registers. -/
theorem effect_hdrWrb_none {off : Offset} (h : fieldAtOffset (effectiveOffset off) = none) (b : Byte)
    (r : Registers) : effect (.hdrWrb off b) r = r := by simp [effect, h]

/-- A byte write to a field replaces its lane. -/
theorem effect_hdrWrb_some {off : Offset} {k : Field} (h : fieldAtOffset (effectiveOffset off) = some k)
    (b : Byte) (r : Registers) :
    effect (.hdrWrb off b) r =
      r.setField k (setByteLane (r.getField k) (laneAtOffset (effectiveOffset off)) b) := by
  simp [effect, h]

/-- The response to a command. -/
def answer (i : Instr) (r : Registers) : Response :=
  match i with
  | .crcFin => okWord (r.crc ^^^ Config.crcXorOut)
  | .hdrRdf k => okWord (r.getField k)
  | .hdrRdb off => if offsetLegal off then okByte (image r (effectiveOffset off)) else errorResponse .range
  | .hdrWrb off _ => if offsetLegal off then okNone else errorResponse .range
  | .xorB b => okByte (b ^^^ r.key)
  | _ => okNone

/-- Every instruction completes, in every state, with its effect and its answer. -/
theorem exec_eq (i : Instr) (s : State) :
    exec i s = .next { s with regs := effect i s.regs, responses := s.responses ++ [answer i s.regs] } := by
  cases i with
  | hdrRdb off =>
    by_cases h : off.toNat < 512
    · simp [exec, execHdrRdb, effectiveOffset, memRead_lt h, answer, offsetLegal, Config.headerSize, h,
        effect, State.record]
    · simp [exec, execHdrRdb, effectiveOffset, memRead_ge (Nat.not_lt.mp h), answer, offsetLegal,
        Config.headerSize, h, effect, State.record]
  | hdrWrb off b =>
    obtain ⟨h, e⟩ | ⟨h, h', e⟩ | ⟨k, hk, h, e⟩ := memWrite_cases off.toNat b s
    · have h16 : 16 ≤ off.toNat := by omega
      simp [exec, execHdrWrb, effectiveOffset, e, answer, offsetLegal, Config.headerSize,
        Nat.not_lt.mpr h, effect, fieldAtOffset_padding h16, State.record]
    · simp [exec, execHdrWrb, effectiveOffset, e, answer, offsetLegal, Config.headerSize, h', effect,
        fieldAtOffset_padding h, State.record]
    · have h' : off.toNat < 512 := by omega
      simp [exec, execHdrWrb, effectiveOffset, e, answer, offsetLegal, Config.headerSize, h', effect,
        hk, State.record, State.setField]
  | _ => rfl

/-- A step with a command next, in terms of its decoding. -/
theorem step_command (cmd : CmdWord) (s : State) (rest : List Input) :
    step { s with inputs := .command cmd :: rest } =
      match decode cmd with
      | .instr i => exec i { s with inputs := rest }
      | .error e => raiseError e { s with inputs := rest } := rfl

/-- The host's presenting a word and the block's step. -/
theorem step_present (cmd : CmdWord) (s : State) :
    step (s.present cmd) =
      match decode cmd with
      | .instr i => exec i s
      | .error e => raiseError e s := rfl

/-- Everything a step can do: nothing was pending; a reset; an instruction; a command error. -/
theorem step_cases (s : State) :
    (s.inputs = [] ∧ step s = .next s) ∨
    (∃ rest, s.inputs = .reset :: rest ∧
      step s = .next { s with regs := Registers.reset, inputs := rest }) ∨
    (∃ cmd rest i, s.inputs = .command cmd :: rest ∧ decode cmd = .instr i ∧
      step s = .next { regs := effect i s.regs, inputs := rest,
                       responses := s.responses ++ [answer i s.regs] }) ∨
    (∃ cmd rest e, s.inputs = .command cmd :: rest ∧ decode cmd = .error e ∧
      step s = .next { s with inputs := rest, responses := s.responses ++ [errorResponse e] }) := by
  obtain ⟨regs, inputs, responses⟩ := s
  match inputs with
  | [] => exact .inl ⟨rfl, rfl⟩
  | .reset :: rest => exact .inr (.inl ⟨rest, rfl, rfl⟩)
  | .command cmd :: rest =>
    cases hd : decode cmd with
    | instr i =>
      refine .inr (.inr (.inl ⟨cmd, rest, i, rfl, hd, ?_⟩))
      simp [step, takeInput, hd, exec_eq]
    | error e =>
      refine .inr (.inr (.inr ⟨cmd, rest, e, rfl, hd, ?_⟩))
      simp [step, takeInput, hd, State.record]

/-! ## Runs -/

@[simp] theorem run_zero (s : State) : Host.Core.run core 0 s = .next s := rfl

/-- A run of any machine whose first step goes to t is that step and then the run from t. -/
theorem core_run_succ (M : Host.Core) {s t : M.State} (h : M.step s = .next t) (k : Nat) :
    M.run (k + 1) s = M.run k t := by
  simp [Host.Core.run, h]

/-- The same for the block. -/
theorem run_succ_of_next {s t : State} (h : step s = .next t) (k : Nat) :
    Host.Core.run core (k + 1) s = Host.Core.run core k t := core_run_succ core h k

end Sys2Proof.Laws
end

