-- ==== Sys2Proof/Laws/Composite.lean ====
section
/-! SUPPORT. Issuing commands, and the byte sequences of the codec: the small facts that claims about the
composite operations rest on. -/

namespace Sys2Proof.Laws

open Sys2Proof.Machine

/-! ## Issuing -/

/-- Issuing a command whose word decodes to it: its answer, and its effect on the registers. -/
theorem issue_of_decode {i : Instr} (h : decode (encode i) = .instr i) (s : State) :
    issue i s = some (answer i s.regs,
      { s with regs := effect i s.regs, responses := s.responses ++ [answer i s.regs] }) := by
  simp [issue, step_present, h, exec_eq]

@[simp] theorem issueAll_nil (s : State) : issueAll [] s = some ([], s) := rfl

/-- Issuing one command and then others. -/
theorem issueAll_cons_of_issue {i : Instr} {is : List Instr} {s s' : State} {r : Response}
    (h : issue i s = some (r, s')) :
    issueAll (i :: is) s = (issueAll is s').map (fun p => (r :: p.1, p.2)) := by
  simp only [issueAll, h, Option.bind_eq_bind, Option.bind_some]
  cases issueAll is s' <;> rfl

/-- Issuing a list that is two lists joined. -/
theorem issueAll_append (is js : List Instr) (s : State) :
    issueAll (is ++ js) s =
      (issueAll is s).bind fun p => (issueAll js p.2).map fun q => (p.1 ++ q.1, q.2) := by
  induction is generalizing s with
  | nil => cases h : issueAll js s <;> simp [h]
  | cons i is ih =>
    simp only [List.cons_append, issueAll, Option.bind_eq_bind]
    cases issue i s with
    | none => rfl
    | some p =>
      simp only [Option.bind_some, ih]
      cases issueAll is p.2 with
      | none => rfl
      | some q => cases h : issueAll js q.2 <;> simp [h]

/-- The registers after several commands. -/
def effects (is : List Instr) (r : Registers) : Registers := is.foldl (fun r i => effect i r) r

/-- The responses to several commands. -/
def answers : List Instr → Registers → List Response
  | [], _ => []
  | i :: is, r => answer i r :: answers is (effect i r)

@[simp] theorem effects_nil (r : Registers) : effects [] r = r := rfl
@[simp] theorem effects_cons (i : Instr) (is : List Instr) (r : Registers) :
    effects (i :: is) r = effects is (effect i r) := rfl
@[simp] theorem answers_nil (r : Registers) : answers [] r = [] := rfl
@[simp] theorem answers_cons (i : Instr) (is : List Instr) (r : Registers) :
    answers (i :: is) r = answer i r :: answers is (effect i r) := rfl

@[simp] theorem answers_length (is : List Instr) (r : Registers) : (answers is r).length = is.length := by
  induction is generalizing r with
  | nil => rfl
  | cons i is ih => simp [ih]

/-- Issuing several commands whose words decode to them: their answers, and their effects in turn. -/
theorem issueAll_of_decode {is : List Instr} (h : ∀ i ∈ is, decode (encode i) = .instr i) (s : State) :
    issueAll is s = some (answers is s.regs,
      { s with regs := effects is s.regs, responses := s.responses ++ answers is s.regs }) := by
  induction is generalizing s with
  | nil => simp
  | cons i is ih =>
    rw [issueAll_cons_of_issue (issue_of_decode (h i (by simp)) s), ih (fun j hj => h j (by simp [hj]))]
    simp

/-- A legal command is answered `OK` in every state (spec/43_codec.md R87). -/
theorem answer_status_of_wf {i : Instr} (h : i.wf = true) (r : Registers) : (answer i r).status = .ok := by
  cases i with
  | hdrRdb off => simp only [answer, show offsetLegal off = true from h, if_true]; rfl
  | hdrWrb off b => simp only [answer, show offsetLegal off = true from h, if_true]; rfl
  | _ => rfl

/-- Several legal commands are all answered `OK`. -/
theorem allOk_answers {is : List Instr} (h : ∀ i ∈ is, i.wf = true) (r : Registers) :
    allOk (answers is r) := by
  induction is generalizing r with
  | nil => exact fun _ h => nomatch h
  | cons i is ih =>
    rintro a (_ | ⟨_, ha⟩)
    · exact answer_status_of_wf (h i (by simp)) r
    · exact ih (fun j hj => h j (by simp [hj])) _ a ha

/-- Two pieces of a history are `OK` when each is. -/
@[simp] theorem allOk_append (rs rs' : List Response) : allOk (rs ++ rs') ↔ allOk rs ∧ allOk rs' := by
  simp only [allOk, List.mem_append, or_imp, forall_and]

/-- Commands that leave the registers as they are: each answers from the registers at the start. -/
theorem answers_of_effect_eq {is : List Instr} {r : Registers} (h : ∀ i ∈ is, effect i r = r) :
    effects is r = r ∧ answers is r = is.map (fun i => answer i r) := by
  induction is with
  | nil => exact ⟨rfl, rfl⟩
  | cons i is ih =>
    have hi := h i (by simp)
    obtain ⟨h1, h2⟩ := ih (fun j hj => h j (by simp [hj]))
    simp [hi, h1, h2]

/-! ## Byte sequences -/

@[simp] theorem le32_length (v : Word) : (le32 v).length = 4 := rfl

@[simp] theorem zeros_length (n : Nat) : (zeros n).length = n := List.length_replicate

@[simp] theorem xorTransform_length (data : List Byte) (key : Byte) :
    (xorTransform data key).length = data.length := List.length_map ..

theorem pack_length (sig csz hsz chk : Word) : (pack sig csz hsz chk).length = 512 := by
  simp [pack, Config.padBytes]

/-- `le32dec(le32(v)) = v` (spec/00_scope.md R10). -/
theorem le32dec_le32 (v : Word) : le32dec (le32 v) = v := by
  apply BitVec.eq_of_getLsbD_eq
  intro i hi
  interval_cases i <;> simp [le32dec, le32, zext32]

/-- The register after two pieces of a message is that after the pieces in turn. -/
theorem crcFold_append (a b : List Byte) (c : Word) :
    crcFold (a ++ b) c = crcFold b (crcFold a c) := by
  induction a generalizing c with
  | nil => rfl
  | cons x a ih => exact ih _

/-- `responseByte` of a byte's response. -/
@[simp] theorem responseByte_okByte (b : Byte) : responseByte (okByte b) = b := by
  apply BitVec.eq_of_getLsbD_eq
  intro i hi
  have h : i < 32 := by omega
  simp [responseByte, okByte, zext32, hi, h]

/-- A response word is laid out as a command word is, the status code in the place of the opcode
(spec/30_encoding.md R42, R45), so the lemmas about the fields of a command word serve for it. -/
theorem responseWord_eq_commandWord (r : Response) :
    responseWord r = commandWord (statusCode r.status) r.data := rfl

/-! ## CRC arithmetic -/

/-- The bit-reduction step is linear over XOR (spec/40_crc.md R64, reason). -/
theorem crcBit_xor (x y : Word) : crcBit (x ^^^ y) = crcBit x ^^^ crcBit y := by
  unfold crcBit
  rw [BitVec.getLsbD_xor, BitVec.ushiftRight_xor_distrib]
  generalize x >>> 1 = u
  generalize y >>> 1 = v
  apply BitVec.eq_of_getLsbD_eq
  intro i hi
  cases x.getLsbD 0 <;> cases y.getLsbD 0 <;>
    simp only [Bool.xor_true, Bool.xor_false, Bool.not_true, Bool.not_false, if_true, if_false,
      Bool.false_eq_true, BitVec.getLsbD_xor] <;>
    cases u.getLsbD i <;> cases v.getLsbD i <;> cases Config.polyReflected.getLsbD i <;> rfl

theorem crcBits_xor (n : Nat) (x y : Word) : crcBits n (x ^^^ y) = crcBits n x ^^^ crcBits n y := by
  induction n generalizing x y with
  | zero => rfl
  | succ n ih => simp [crcBits, crcBit_xor, ih]

end Sys2Proof.Laws
end

