-- ==== Sys2Proof/Laws/PerInstr.lean ====
section
/-! SUPPORT. Statements made per instruction: the family `TableRow` says that the command word of an
instruction is an instance of its row of spec/opcode_table.json. -/

namespace Sys2Proof.Laws.TableRow

open Sys2Proof.Machine

/-- The word of an instruction passes the mask and match of its row (spec/30_encoding.md R48). -/
def Statement (i : Instr) : Prop := encode i &&& rowMask (opOfInstr i) = rowMatch (opOfInstr i)

/-- A row's mask is the opcode and the reserved bits, and its match the opcode above zeros. -/
theorem masked_commandWord (o : Op) {arg : Word} (h : arg &&& reservedBits (opFormat o) = 0#32) :
    commandWord (opCode o) arg &&& rowMask o = rowMatch o := by
  have hm : rowMask o = commandWord 0xFF#8 (reservedBits (opFormat o)) := by cases o <;> rfl
  have hr : rowMatch o = commandWord (opCode o) 0#32 := by cases o <;> rfl
  rw [hm, hr]
  apply BitVec.eq_of_getLsbD_eq
  intro n hn
  simp only [BitVec.getLsbD_and, getLsbD_commandWord]
  by_cases h32 : n < 32
  · have hz := and_eq_zero_iff.mp h n h32
    cases hb : (reservedBits (opFormat o)).getLsbD n with
    | false => simp [h32]
    | true => rw [if_pos h32, if_pos h32, if_pos h32, hz hb]; simp
  · have h8 : n - 32 < 8 := by omega
    have h255 : (0xFF#8).getLsbD (n - 32) = true := by
      generalize n - 32 = m at h8
      interval_cases m <;> rfl
    simp [h32, h255]

theorem of_encode (i : Instr) : Statement i := masked_commandWord _ (argOfInstr_reserved i)

theorem crcInit : Statement (.crcInit) := of_encode _
theorem crcUpd (b : Byte) : Statement (.crcUpd b) := of_encode _
theorem crcFin : Statement (.crcFin) := of_encode _
theorem hdrNew : Statement (.hdrNew) := of_encode _
theorem hdrSig (w : Word) : Statement (.hdrSig w) := of_encode _
theorem hdrCsz (w : Word) : Statement (.hdrCsz w) := of_encode _
theorem hdrChk (w : Word) : Statement (.hdrChk w) := of_encode _
theorem hdrRdf (k : Field) : Statement (.hdrRdf k) := of_encode _
theorem hdrRdb (off : Offset) : Statement (.hdrRdb off) := of_encode _
theorem hdrWrb (off : Offset) (b : Byte) : Statement (.hdrWrb off b) := of_encode _
theorem keySet (b : Byte) : Statement (.keySet b) := of_encode _
theorem xorB (b : Byte) : Statement (.xorB b) := of_encode _

end Sys2Proof.Laws.TableRow
end

