-- ==== Sys2Proof/Tests/Slice0.lean ====
section
/-! SUPPORT. Small tests and witnesses. Every expected value is written out from spec/: the encodings of
spec/30_encoding.md, the table of spec/40_crc.md, the vectors of spec/95_test_vectors.md. A witness shows a
concrete state and operands that meet the hypotheses of one obligation, or of one clause of it. -/

namespace Sys2Proof.Tests

open Sys2Proof.Machine

/-! ## Helpers -/

/-- The dirty start state of program P1 (spec/95_test_vectors.md section 3). -/
def dirty : State where
  regs := { crc := 0x12345678#32, key := 0x5A#8, hsig := 0xAAAAAAAA#32, hcsz := 0xBBBBBBBB#32,
            hhsz := 0xCCCCCCCC#32, hchk := 0xDDDDDDDD#32 }
  inputs := []
  responses := []

/-- The dirty state with a CRC register. -/
def withCrc (v : Word) : State := dirty.setCrc v

/-- The dirty state with a key. -/
def withKey (v : Byte) : State := dirty.setKey v

/-- The dirty state with a header field. -/
def withField (k : Field) (v : Word) : State := dirty.setField k v

/-- The registers of the second packing row of spec/95_test_vectors.md section 2.2. -/
def packedRow : State where
  regs := { crc := 0#32, key := 0#8, hsig := 0x4D524C41#32, hcsz := 4#32, hhsz := 0x200#32,
            hchk := 0x7C9CA35A#32 }
  inputs := []
  responses := []

/-- The registers after one step on a command word. -/
def regsAfter (s : State) (cmd : CmdWord) : Option Registers := (nextState (step (s.present cmd))).map State.regs

/-- The response words after one step on a command word. -/
def answersAfter (s : State) (cmd : CmdWord) : Option (List RespWord) :=
  (nextState (step (s.present cmd))).map fun t => t.responses.map responseWord

/-! ## Well-formedness: an ill-formed term for each check, and the boundary -/

theorem test_wf_refuses_read_offset_512 : (Instr.hdrRdb 512#16).wf = false := by decide
theorem test_wf_refuses_write_offset_512 : (Instr.hdrWrb 512#16 0xAA#8).wf = false := by decide
theorem test_wf_refuses_read_offset_65535 : (Instr.hdrRdb 65535#16).wf = false := by decide
theorem test_wf_accepts_read_offset_511 : (Instr.hdrRdb 511#16).wf = true := by decide
theorem test_wf_accepts_write_offset_511 : (Instr.hdrWrb 511#16 0xEE#8).wf = true := by decide

/-! ## Decoding: the words of spec/30_encoding.md section 6, bit by bit from R47 -/

theorem test_decode_crc_init :
    decode 0b0001000000000000000000000000000000000000#40 = .instr (.crcInit) := by decide
theorem test_decode_crc_upd :
    decode 0b0001000100000000000000000000000001100001#40 = .instr (.crcUpd 0x61#8) := by decide
theorem test_decode_crc_fin :
    decode 0b0001001000000000000000000000000000000000#40 = .instr (.crcFin) := by decide
theorem test_decode_hdr_new :
    decode 0b0010000000000000000000000000000000000000#40 = .instr (.hdrNew) := by decide
theorem test_decode_hdr_sig :
    decode 0b0010000101001101010100100100110001000001#40 = .instr (.hdrSig 0x4D524C41#32) := by decide
theorem test_decode_hdr_csz :
    decode 0b0010001000000000000000000000000000000100#40 = .instr (.hdrCsz 4#32) := by decide
theorem test_decode_hdr_chk :
    decode 0b0010001101111100100111001010001101011010#40 = .instr (.hdrChk 0x7C9CA35A#32) := by decide
theorem test_decode_hdr_rdf :
    decode 0b0010010000000000000000000000000000000010#40 = .instr (.hdrRdf .hsz) := by decide
theorem test_decode_hdr_rdb :
    decode 0b0010010100000000000000000000000111111111#40 = .instr (.hdrRdb 511#16) := by decide
theorem test_decode_hdr_wrb :
    decode 0b0010011000000000000000000000001101001101#40 = .instr (.hdrWrb 3#16 0x4D#8) := by decide
theorem test_decode_key_set :
    decode 0b0011000000000000000000000000000010110011#40 = .instr (.keySet 0xB3#8) := by decide
theorem test_decode_xor_b :
    decode 0b0011000100000000000000000000000011011110#40 = .instr (.xorB 0xDE#8) := by decide

/-- The same twelve words, encoded (spec/30_encoding.md section 6). -/
theorem test_encode_worked_words :
    [encode .crcInit, encode (.crcUpd 0x61#8), encode .crcFin, encode .hdrNew, encode (.hdrSig 0x4D524C41#32),
      encode (.hdrCsz 4#32), encode (.hdrChk 0x7C9CA35A#32), encode (.hdrRdf .hsz), encode (.hdrRdb 511#16),
      encode (.hdrWrb 3#16 0x4D#8), encode (.keySet 0xB3#8), encode (.xorB 0xDE#8)] =
    [0x1000000000#40, 0x1100000061#40, 0x1200000000#40, 0x2000000000#40, 0x214D524C41#40, 0x2200000004#40,
      0x237C9CA35A#40, 0x2400000002#40, 0x25000001FF#40, 0x260000034D#40, 0x30000000B3#40, 0x31000000DE#40] := by
  decide

/-- The four field numbers (spec/30_encoding.md R43, R44). -/
theorem test_decode_field_numbers :
    [decode 0x2400000000#40, decode 0x2400000001#40, decode 0x2400000002#40, decode 0x2400000003#40] =
    [.instr (.hdrRdf .sig), .instr (.hdrRdf .csz), .instr (.hdrRdf .hsz), .instr (.hdrRdf .chk)] := by decide

/-- The erroneous words of spec/95_test_vectors.md section 2.4, in its order. -/
theorem test_decode_errors :
    [0x0000000000#40, 0xFFFFFFFFFF#40, 0x1300000000#40, 0x2700000000#40, 0x3200000000#40].map decode =
      [.error .opcode, .error .opcode, .error .opcode, .error .opcode, .error .opcode] ∧
    [0x1000000001#40, 0x1100000161#40, 0x3100000100#40, 0x2400000004#40, 0x2500010200#40, 0x26010000AA#40].map
        decode =
      [.error .operand, .error .operand, .error .operand, .error .operand, .error .operand, .error .operand] ∧
    [0x2500000200#40, 0x250000FFFF#40, 0x26000200AA#40].map decode =
      [.error .range, .error .range, .error .range] := by decide

/-- The legal boundary words of spec/95_test_vectors.md section 2.4. -/
theorem test_decode_legal_boundaries :
    [0x25000001FF#40, 0x260001FFEE#40, 0x21FFFFFFFF#40].map decode =
      [.instr (.hdrRdb 511#16), .instr (.hdrWrb 511#16 0xEE#8), .instr (.hdrSig 0xFFFFFFFF#32)] := by decide

theorem test_decodeTableWord : decodeTableWord 40 0x260000034D = some (.hdrWrb 3#16 0x4D#8) := by decide
theorem test_decodeTableWord_refused : decodeTableWord 40 0x2500000200 = none := by decide
theorem test_decodeTableWord_too_wide : decodeTableWord 48 0x1000000000 = none := by decide

/-- The first step after reset runs the word placed (spec/10_state.md R22). -/
theorem test_withFetchWord :
    (nextState (step (State.reset.withFetchWord 40 0x30000000B3))).map (fun s => (s.regs.key, s.inputs)) =
      some (0xB3#8, []) := by decide

/-! ## One step of each command, from the examples and vectors of the spec -/

/-- R61 example. -/
theorem test_crc_init_from_dirty :
    regsAfter dirty 0x1000000000#40 = some (withCrc 0xFFFFFFFF#32).regs := by decide
/-- R62 example. -/
theorem test_crc_upd_abc :
    regsAfter (withCrc 0xFFFFFFFF#32) 0x1100000061#40 = some (withCrc 0x174841BC#32).regs := by decide +kernel
/-- Section 2.1, last single step. -/
theorem test_crc_upd_high_bits :
    regsAfter (withCrc 0x12345678#32) 0x11000000AB#40 = some (withCrc 0x1FC8B738#32).regs := by decide +kernel
/-- R63 example. -/
theorem test_crc_fin_abc :
    answersAfter (withCrc 0xCADBBE3D#32) 0x1200000000#40 = some [0x00352441C2#40] := by decide
theorem test_crc_fin_keeps_register :
    regsAfter (withCrc 0xCADBBE3D#32) 0x1200000000#40 = some (withCrc 0xCADBBE3D#32).regs := by decide
/-- R70: the fields, and nothing else. -/
theorem test_hdr_new_from_dirty :
    regsAfter dirty 0x2000000000#40 = some { dirty.regs with
      hsig := 0#32, hcsz := 0#32, hhsz := 0x200#32, hchk := 0#32 } := by decide
/-- R71 example. -/
theorem test_hdr_sig : regsAfter dirty 0x214D524C41#40 = some (withField .sig 0x4D524C41#32).regs := by decide
/-- R72 example. -/
theorem test_hdr_csz : regsAfter dirty 0x2200000004#40 = some (withField .csz 4#32).regs := by decide
/-- R73 example. -/
theorem test_hdr_chk : regsAfter dirty 0x237C9CA35A#40 = some (withField .chk 0x7C9CA35A#32).regs := by decide
/-- Section 2.2, the reads of the second row: the four fields. -/
theorem test_hdr_rdf_fields :
    [answersAfter packedRow 0x2400000000#40, answersAfter packedRow 0x2400000001#40,
      answersAfter packedRow 0x2400000002#40, answersAfter packedRow 0x2400000003#40] =
    [some [0x004D524C41#40], some [0x0000000004#40], some [0x0000000200#40], some [0x007C9CA35A#40]] := by decide
/-- Section 2.2, the reads of the second row: bytes 0, 9, 12, 15, 16, 511, 512. -/
theorem test_hdr_rdb_bytes :
    [0x2500000000#40, 0x2500000009#40, 0x250000000C#40, 0x250000000F#40, 0x2500000010#40, 0x25000001FF#40,
      0x2500000200#40].map (answersAfter packedRow) =
    [some [0x41#40], some [0x02#40], some [0x5A#40], some [0x7C#40], some [0x00#40], some [0x00#40],
      some [0x0300000000#40]] := by decide
/-- Section 2.2, byte lanes: the low and the high lane, three other fields. -/
theorem test_hdr_wrb_lanes :
    [regsAfter (withField .sig 0x11223344#32) 0x2600000045#40,
      regsAfter (withField .sig 0x11223344#32) 0x2600000300#40,
      regsAfter (withField .csz 0#32) 0x2600000501#40, regsAfter (withField .hsz 0x200#32) 0x2600000904#40,
      regsAfter (withField .chk 0#32) 0x2600000FEE#40] =
    [some (withField .sig 0x11223345#32).regs, some (withField .sig 0x00223344#32).regs,
      some (withField .csz 0x100#32).regs, some (withField .hsz 0x400#32).regs,
      some (withField .chk 0xEE000000#32).regs] := by decide
/-- Section 2.2: writes at 16, 511 and 512 change nothing; the last is `ERR_RANGE`. -/
theorem test_hdr_wrb_beyond_fields :
    [0x26000010AA#40, 0x260001FFAA#40, 0x26000200AA#40].map (fun c => (regsAfter dirty c, answersAfter dirty c)) =
    [(some dirty.regs, some [0x0000000000#40]), (some dirty.regs, some [0x0000000000#40]),
      (some dirty.regs, some [0x0300000000#40])] := by decide
/-- R82 example. -/
theorem test_key_set : regsAfter dirty 0x30000000B3#40 = some (withKey 0xB3#8).regs := by decide
/-- R83 example. -/
theorem test_xor_b : answersAfter (withKey 0xB3#8) 0x31000000DE#40 = some [0x000000006D#40] := by decide
/-- Section 2.3: identity, complement, the key itself, the zero byte. -/
theorem test_xor_b_corners :
    [answersAfter (withKey 0x00#8) 0x310000007E#40, answersAfter (withKey 0xFF#8) 0x310000000F#40,
      answersAfter (withKey 0xB3#8) 0x31000000B3#40, answersAfter (withKey 0xB3#8) 0x3100000000#40] =
    [some [0x7E#40], some [0xF0#40], some [0x00#40], some [0xB3#40]] := by decide
/-- Program P5: an error answers its code and leaves the registers. -/
theorem test_errors_change_nothing :
    [0xFFFFFFFFFF#40, 0x1100000161#40, 0x2500010200#40, 0x26000200AA#40].map
      (fun c => (regsAfter dirty c, answersAfter dirty c)) =
    [(some dirty.regs, some [0x0100000000#40]), (some dirty.regs, some [0x0200000000#40]),
      (some dirty.regs, some [0x0200000000#40]), (some dirty.regs, some [0x0300000000#40])] := by decide

/-- Reset from a dirty state (section 2.6), with no response. -/
theorem test_reset_from_dirty :
    nextState (step { dirty with inputs := [.reset] }) = some State.reset := by decide

/-! ## CRC table and checksums -/

/-- Rows 0x00 to 0x3F of the table of spec/40_crc.md section 4. -/
theorem test_crc_table_0 :
    (List.range 64).map (fun i => crcTable (BitVec.ofNat 8 (0 + i))) =
      [0x00000000#32, 0x77073096#32, 0xEE0E612C#32, 0x990951BA#32,
        0x076DC419#32, 0x706AF48F#32, 0xE963A535#32, 0x9E6495A3#32] ++
      [0x0EDB8832#32, 0x79DCB8A4#32, 0xE0D5E91E#32, 0x97D2D988#32,
        0x09B64C2B#32, 0x7EB17CBD#32, 0xE7B82D07#32, 0x90BF1D91#32] ++
      [0x1DB71064#32, 0x6AB020F2#32, 0xF3B97148#32, 0x84BE41DE#32,
        0x1ADAD47D#32, 0x6DDDE4EB#32, 0xF4D4B551#32, 0x83D385C7#32] ++
      [0x136C9856#32, 0x646BA8C0#32, 0xFD62F97A#32, 0x8A65C9EC#32,
        0x14015C4F#32, 0x63066CD9#32, 0xFA0F3D63#32, 0x8D080DF5#32] ++
      [0x3B6E20C8#32, 0x4C69105E#32, 0xD56041E4#32, 0xA2677172#32,
        0x3C03E4D1#32, 0x4B04D447#32, 0xD20D85FD#32, 0xA50AB56B#32] ++
      [0x35B5A8FA#32, 0x42B2986C#32, 0xDBBBC9D6#32, 0xACBCF940#32,
        0x32D86CE3#32, 0x45DF5C75#32, 0xDCD60DCF#32, 0xABD13D59#32] ++
      [0x26D930AC#32, 0x51DE003A#32, 0xC8D75180#32, 0xBFD06116#32,
        0x21B4F4B5#32, 0x56B3C423#32, 0xCFBA9599#32, 0xB8BDA50F#32] ++
      [0x2802B89E#32, 0x5F058808#32, 0xC60CD9B2#32, 0xB10BE924#32,
        0x2F6F7C87#32, 0x58684C11#32, 0xC1611DAB#32, 0xB6662D3D#32] := by decide +kernel
/-- Rows 0x40 to 0x7F of the table of spec/40_crc.md section 4. -/
theorem test_crc_table_1 :
    (List.range 64).map (fun i => crcTable (BitVec.ofNat 8 (64 + i))) =
      [0x76DC4190#32, 0x01DB7106#32, 0x98D220BC#32, 0xEFD5102A#32,
        0x71B18589#32, 0x06B6B51F#32, 0x9FBFE4A5#32, 0xE8B8D433#32] ++
      [0x7807C9A2#32, 0x0F00F934#32, 0x9609A88E#32, 0xE10E9818#32,
        0x7F6A0DBB#32, 0x086D3D2D#32, 0x91646C97#32, 0xE6635C01#32] ++
      [0x6B6B51F4#32, 0x1C6C6162#32, 0x856530D8#32, 0xF262004E#32,
        0x6C0695ED#32, 0x1B01A57B#32, 0x8208F4C1#32, 0xF50FC457#32] ++
      [0x65B0D9C6#32, 0x12B7E950#32, 0x8BBEB8EA#32, 0xFCB9887C#32,
        0x62DD1DDF#32, 0x15DA2D49#32, 0x8CD37CF3#32, 0xFBD44C65#32] ++
      [0x4DB26158#32, 0x3AB551CE#32, 0xA3BC0074#32, 0xD4BB30E2#32,
        0x4ADFA541#32, 0x3DD895D7#32, 0xA4D1C46D#32, 0xD3D6F4FB#32] ++
      [0x4369E96A#32, 0x346ED9FC#32, 0xAD678846#32, 0xDA60B8D0#32,
        0x44042D73#32, 0x33031DE5#32, 0xAA0A4C5F#32, 0xDD0D7CC9#32] ++
      [0x5005713C#32, 0x270241AA#32, 0xBE0B1010#32, 0xC90C2086#32,
        0x5768B525#32, 0x206F85B3#32, 0xB966D409#32, 0xCE61E49F#32] ++
      [0x5EDEF90E#32, 0x29D9C998#32, 0xB0D09822#32, 0xC7D7A8B4#32,
        0x59B33D17#32, 0x2EB40D81#32, 0xB7BD5C3B#32, 0xC0BA6CAD#32] := by decide +kernel
/-- Rows 0x80 to 0xBF of the table of spec/40_crc.md section 4. -/
theorem test_crc_table_2 :
    (List.range 64).map (fun i => crcTable (BitVec.ofNat 8 (128 + i))) =
      [0xEDB88320#32, 0x9ABFB3B6#32, 0x03B6E20C#32, 0x74B1D29A#32,
        0xEAD54739#32, 0x9DD277AF#32, 0x04DB2615#32, 0x73DC1683#32] ++
      [0xE3630B12#32, 0x94643B84#32, 0x0D6D6A3E#32, 0x7A6A5AA8#32,
        0xE40ECF0B#32, 0x9309FF9D#32, 0x0A00AE27#32, 0x7D079EB1#32] ++
      [0xF00F9344#32, 0x8708A3D2#32, 0x1E01F268#32, 0x6906C2FE#32,
        0xF762575D#32, 0x806567CB#32, 0x196C3671#32, 0x6E6B06E7#32] ++
      [0xFED41B76#32, 0x89D32BE0#32, 0x10DA7A5A#32, 0x67DD4ACC#32,
        0xF9B9DF6F#32, 0x8EBEEFF9#32, 0x17B7BE43#32, 0x60B08ED5#32] ++
      [0xD6D6A3E8#32, 0xA1D1937E#32, 0x38D8C2C4#32, 0x4FDFF252#32,
        0xD1BB67F1#32, 0xA6BC5767#32, 0x3FB506DD#32, 0x48B2364B#32] ++
      [0xD80D2BDA#32, 0xAF0A1B4C#32, 0x36034AF6#32, 0x41047A60#32,
        0xDF60EFC3#32, 0xA867DF55#32, 0x316E8EEF#32, 0x4669BE79#32] ++
      [0xCB61B38C#32, 0xBC66831A#32, 0x256FD2A0#32, 0x5268E236#32,
        0xCC0C7795#32, 0xBB0B4703#32, 0x220216B9#32, 0x5505262F#32] ++
      [0xC5BA3BBE#32, 0xB2BD0B28#32, 0x2BB45A92#32, 0x5CB36A04#32,
        0xC2D7FFA7#32, 0xB5D0CF31#32, 0x2CD99E8B#32, 0x5BDEAE1D#32] := by decide +kernel
/-- Rows 0xC0 to 0xFF of the table of spec/40_crc.md section 4. -/
theorem test_crc_table_3 :
    (List.range 64).map (fun i => crcTable (BitVec.ofNat 8 (192 + i))) =
      [0x9B64C2B0#32, 0xEC63F226#32, 0x756AA39C#32, 0x026D930A#32,
        0x9C0906A9#32, 0xEB0E363F#32, 0x72076785#32, 0x05005713#32] ++
      [0x95BF4A82#32, 0xE2B87A14#32, 0x7BB12BAE#32, 0x0CB61B38#32,
        0x92D28E9B#32, 0xE5D5BE0D#32, 0x7CDCEFB7#32, 0x0BDBDF21#32] ++
      [0x86D3D2D4#32, 0xF1D4E242#32, 0x68DDB3F8#32, 0x1FDA836E#32,
        0x81BE16CD#32, 0xF6B9265B#32, 0x6FB077E1#32, 0x18B74777#32] ++
      [0x88085AE6#32, 0xFF0F6A70#32, 0x66063BCA#32, 0x11010B5C#32,
        0x8F659EFF#32, 0xF862AE69#32, 0x616BFFD3#32, 0x166CCF45#32] ++
      [0xA00AE278#32, 0xD70DD2EE#32, 0x4E048354#32, 0x3903B3C2#32,
        0xA7672661#32, 0xD06016F7#32, 0x4969474D#32, 0x3E6E77DB#32] ++
      [0xAED16A4A#32, 0xD9D65ADC#32, 0x40DF0B66#32, 0x37D83BF0#32,
        0xA9BCAE53#32, 0xDEBB9EC5#32, 0x47B2CF7F#32, 0x30B5FFE9#32] ++
      [0xBDBDF21C#32, 0xCABAC28A#32, 0x53B39330#32, 0x24B4A3A6#32,
        0xBAD03605#32, 0xCDD70693#32, 0x54DE5729#32, 0x23D967BF#32] ++
      [0xB3667A2E#32, 0xC4614AB8#32, 0x5D681B02#32, 0x2A6F2B94#32,
        0xB40BBE37#32, 0xC30C8EA1#32, 0x5A05DF1B#32, 0x2D02EF8D#32] := by decide +kernel

/-- Section 2.1: checksums of whole messages. -/
theorem test_crc32_messages :
    [crc32 [], crc32 [0x00#8], crc32 [0xFF#8], crc32 [0x61#8], crc32 [0x61#8, 0x62#8, 0x63#8],
      crc32 [0xDE#8, 0xAD#8, 0xBE#8, 0xEF#8], crc32 [0#8, 0#8, 0#8, 0#8], crc32 [1#8, 2#8, 3#8, 4#8]] =
    [0x00000000#32, 0xD202EF8D#32, 0xFF000000#32, 0xE8B7BE43#32, 0x352441C2#32, 0x7C9CA35A#32, 0x2144DF1C#32,
      0xB63CFBCD#32] := by decide +kernel

/-- Section 2.1: "123456789". -/
theorem test_crc32_check_value :
    crc32 [0x31#8, 0x32#8, 0x33#8, 0x34#8, 0x35#8, 0x36#8, 0x37#8, 0x38#8, 0x39#8] = 0xCBF43926#32 := by
  decide +kernel

/-- Section 2.1: a message followed by its own checksum leaves the register at 0xDEBB20E3. -/
theorem test_crc_residue :
    crcFold [0x61#8, 0x62#8, 0x63#8, 0xC2#8, 0x41#8, 0x24#8, 0x35#8] 0xFFFFFFFF#32 = 0xDEBB20E3#32 := by
  decide +kernel

/-- R66: the most-significant-bit-first form on "abc". -/
theorem test_crc32Msb_abc : crc32Msb [0x61#8, 0x62#8, 0x63#8] = 0x352441C2#32 := by decide +kernel

/-! ## Composite operations -/

/-- The container K3 of section 2.5, written out. -/
def k3 : List Byte :=
  [0x41#8, 0x4C#8, 0x52#8, 0x4D#8, 0x04#8, 0x00#8, 0x00#8, 0x00#8, 0x00#8, 0x02#8, 0x00#8, 0x00#8, 0x5A#8,
    0xA3#8, 0x9C#8, 0x7C#8] ++ List.replicate 496 0x00#8 ++ [0x6D#8, 0x1E#8, 0x0D#8, 0x5C#8]

/-- K3, the source's end-to-end example V7. -/
theorem test_craft_k3 :
    craft [0xDE#8, 0xAD#8, 0xBE#8, 0xEF#8] 0x4D524C41#32 0xB3#8 = some (.ok k3) := by decide +kernel

/-- K6. -/
theorem test_craft_empty : craft [] 1#32 2#8 = some (.err .emptyInput) := by decide

/-- U1, U2, U3, U5. -/
theorem test_uncraft_errors :
    [uncraft [] 1#32 2#8, uncraft [0#8] 0#32 0#8, uncraft (List.replicate 512 0#8) 0#32 0#8,
      uncraft (List.replicate 513 0#8) 1#32 0x55#8] =
    [.err .readFailure, .err .tooSmall, .err .tooSmall, .err .signatureMismatch] := by decide +kernel

/-- U4, the shortest accepted container, and U7, U8, U10. -/
theorem test_uncraft_accepts :
    [uncraft (List.replicate 513 0#8) 0#32 0x55#8, uncraft k3 0x4D524C41#32 0xB3#8,
      uncraft k3 0x4D524C41#32 0x00#8, uncraft (k3.take 515) 0x4D524C41#32 0xB3#8] =
    [.ok [0x55#8], .ok [0xDE#8, 0xAD#8, 0xBE#8, 0xEF#8], .ok [0x6D#8, 0x1E#8, 0x0D#8, 0x5C#8],
      .ok [0xDE#8, 0xAD#8, 0xBE#8]] := by decide +kernel

/-! ## The assembler (spec/30_encoding.md R53 and section 6) -/

/-- Each form of a number, a field name, an operand pair, a comment. -/
theorem test_assemble_worked_lines :
    [assemble "CRC.INIT", assemble "CRC.UPD 0x61", assemble "HDR.CSZ 4", assemble "HDR.RDF 2",
      assemble "HDR.RDF CHK", assemble "HDR.WRB 3, 0x4D ; the third byte"] =
    [some .crcInit, some (.crcUpd 0x61#8), some (.hdrCsz 4#32), some (.hdrRdf .hsz), some (.hdrRdf .chk),
      some (.hdrWrb 3#16 0x4D#8)] := by decide +kernel

/-- No such command, a missing operand, an operand that does not fit, a field number that does not exist. -/
theorem test_assemble_refuses :
    [assemble "HDR.HSZ 1", assemble "KEY.SET", assemble "XOR.B 256", assemble "HDR.RDF 4"] =
    [none, none, none, none] := by decide +kernel

/-! ## Witnesses of the obligations' hypotheses -/

/-- A header byte sequence whose padding is not zero. -/
def foreign : List Byte := [1#8, 2#8, 3#8, 4#8] ++ List.replicate 508 0xEE#8

theorem witness_DecodeInvertsEncode :
    (Instr.hdrWrb 511#16 0xFF#8).wf = true ∧ (Instr.hdrWrb 512#16 0xFF#8).wf = false := by decide
theorem witness_LegalCommandHasOneWord : decode 0x260001FFEE#40 = .instr (.hdrWrb 511#16 0xEE#8) := by decide
/-- Each of the four outcomes, at the boundary of the range. -/
theorem witness_DecodeOutcomesByTable :
    decode 0x0FFFFFFFFF#40 = .error .opcode ∧ decode 0x2500010000#40 = .error .operand ∧
    decode 0x26000200FF#40 = .error .range ∧ decode 0x260001FFFF#40 = .instr (.hdrWrb 511#16 0xFF#8) := by decide
/-- The first and last opcode of each unassigned range, and the assigned ones beside them. -/
theorem witness_UnassignedOpcodesAnswerErrOpcode :
    [0x00#8, 0x0F#8, 0x13#8, 0x1F#8, 0x27#8, 0x2F#8, 0x32#8, 0xFF#8].all
      (fun op => decode (commandWord op 0#32) = .error .opcode) = true ∧
    [0x10#8, 0x12#8, 0x20#8, 0x26#8, 0x30#8, 0x31#8].all
      (fun op => decode (commandWord op 0#32) ≠ .error .opcode) = true := by decide
/-- The lowest reserved bit of each format, and the highest operand that is not reserved. -/
theorem witness_ReservedBitsAnswerErrOperand :
    [(0x10#8, 1#32), (0x11#8, 0x100#32), (0x24#8, 4#32), (0x25#8, 0x10000#32), (0x26#8, 0x1000000#32),
      (0x30#8, 0x100#32)].all (fun p => decode (commandWord p.1 p.2) = .error .operand) = true ∧
    [(0x10#8, 0#32), (0x11#8, 0xFF#32), (0x21#8, 0xFFFFFFFF#32), (0x24#8, 3#32), (0x25#8, 0xFFFF#32),
      (0x26#8, 0xFFFFFF#32)].all (fun p => decode (commandWord p.1 p.2) ≠ .error .operand) = true := by decide
theorem witness_HdrNewMakesFreshHeader :
    (nextState (exec .hdrNew dirty)).map (fun t => (t.regs.hhsz ≠ dirty.regs.hhsz : Bool)) = some true := by decide
theorem witness_HdrRdbAnswersImageByte : (511#16 : Offset).toNat < 512 ∧ 512 ≤ (512#16 : Offset).toNat := by decide
/-- Offsets 15, 16, 511 and 512, the field of the first, and a byte write that changes `HHSZ`. -/
theorem witness_HdrWrbReplacesByteLane :
    (15#16 : Offset).toNat ≤ 15 ∧ Field.chk = fieldOfNumber (BitVec.ofNat 2 (15 / 4)) ∧
    16 ≤ (16#16 : Offset).toNat ∧ (511#16 : Offset).toNat ≤ 511 ∧ 512 ≤ (512#16 : Offset).toNat ∧
    (nextState (exec (.hdrWrb 11#16 0#8) dirty)).map (fun t => (t.regs.hhsz ≠ dirty.regs.hhsz : Bool)) =
      some true := by decide
theorem witness_KeySetStoresKey :
    (nextState (exec (.xorB 1#8) dirty)).isSome = true ∧ ∀ b, Instr.xorB 1#8 ≠ .keySet b :=
  ⟨by decide, nofun⟩
/-- Each of the seven commands goes to a next state. -/
theorem witness_FrameStoresNoHeaderByte :
    [Instr.crcInit, .crcUpd 1#8, .crcFin, .hdrRdf .chk, .hdrRdb 512#16, .keySet 1#8, .xorB 1#8].all
      (fun i => (nextState (exec i dirty)).isSome) = true := by decide +kernel
/-- Each of the four commands goes to a next state, and there are offsets outside the stored bytes. -/
theorem witness_FrameHeaderWordWrites :
    [Instr.hdrSig 1#32, .hdrCsz 1#32, .hdrChk 1#32, .hdrNew].all (fun i => (nextState (exec i dirty)).isSome) =
      true ∧
    fieldAtOffset 4 ≠ some .sig ∧ fieldAtOffset 3 ≠ some .csz ∧ fieldAtOffset 11 ≠ some .chk ∧
    fieldAtOffset 16 = none := by decide
/-- A stored byte, a padding byte, an offset out of range. -/
theorem witness_FrameImageByteWrite :
    [15#16, 16#16, 512#16].all (fun off => (nextState (exec (.hdrWrb off 1#8) dirty)).isSome) = true ∧
    (14 : Nat) ≠ effectiveOffset 15#16 ∧ fieldAtOffset (effectiveOffset 15#16) ≠ some .hsz := by decide
/-- A register not written, states that agree on what a command reads, a command that ends with an error. -/
theorem witness_RegisterReadWriteTable :
    RegName.crc ∉ writtenBy (.hdrWrb 15#16 1#8) ∧
    dirty.regs.agreeOn (withKey 1#8).regs (readBy (.hdrRdb 15#16) ++ writtenBy (.hdrRdb 15#16)) ∧
    dirty.regs ≠ (withKey 1#8).regs ∧
    (nextState (exec (.hdrRdb 512#16) dirty)).map (fun t => t.responses.map Response.status) =
      some [.errRange] := by
  unfold Registers.agreeOn
  decide
/-- A command whose response does not depend on `HHSZ`, and a read at each end of the field's neighbours. -/
theorem witness_HeaderSizeWritersOnly :
    (nextState (exec (.hdrWrb 8#16 1#8) dirty)).isSome = true ∧ Instr.hdrRdb 7#16 ≠ .hdrRdf .hsz ∧
    ((7#16 : Offset).toNat < 8 ∨ 11 < (7#16 : Offset).toNat) ∧
    ((12#16 : Offset).toNat < 8 ∨ 11 < (12#16 : Offset).toNat) := by decide
theorem witness_StepRunsDecodedInstruction :
    (dirty.present 0x30000000B3#40).inputs = Input.command 0x30000000B3#40 :: [] ∧
    decode 0x30000000B3#40 = .instr (.keySet 0xB3#8) := by decide
theorem witness_CommandErrorChangesNothing :
    (dirty.present 0x2500000200#40).inputs = Input.command 0x2500000200#40 :: [] ∧
    decode 0x2500000200#40 = .error .range := by decide
/-- A state with each kind of input next. -/
theorem witness_EveryStepCompletes :
    (dirty.present 0x00#40).inputs = Input.command 0x00#40 :: [] ∧
    State.inputs { dirty with inputs := [.reset] } = Input.reset :: [] ∧ dirty.inputs = [] := by decide
/-- A history with an error and a read, and a step from it. -/
theorem witness_StepKeepsHistoryForm :
    State.historyWf { dirty.present 0x2400000000#40 with
      responses := [{ status := .errRange, data := 0#32 }, { status := .ok, data := 7#32 }] } ∧
    (nextState (step (dirty.present 0x2400000000#40))).isSome = true := by
  unfold State.historyWf
  decide
/-- `HHSZ` at 0x200 with a byte write at offset 7 to come, and a step from it. -/
theorem witness_StepKeepsHeaderSize :
    State.headerSizeInv (packedRow.present 0x26000007FF#40) ∧
    (nextState (step (packedRow.present 0x26000007FF#40))).isSome = true := by
  refine ⟨⟨by decide, ?_⟩, by decide⟩
  intro cmd h
  simp only [State.present, packedRow, List.mem_singleton, Input.command.injEq] at h
  subst h
  decide
theorem witness_InvariantsHoldAtReset :
    ∀ cmd, Input.command cmd ∈ [Input.command 0x260000070C#40, Input.reset] →
      writesHeaderSizeByte cmd = false := by
  intro cmd h
  simp only [List.mem_cons, Input.command.injEq, reduceCtorEq, List.not_mem_nil, or_false] at h
  subst h
  decide
theorem witness_ImageLayout : (3 : Nat) < 4 ∧ 16 ≤ 16 ∧ 16 ≤ 511 ∧ 511 ≤ 511 := by decide
/-- The boundary offsets 15, 16, 511, 512, and the operand of the last. -/
theorem witness_ImageReadAfterWrite :
    15 < 512 ∧ 15 ≤ 15 ∧ 16 ≤ 16 ∧ 511 < 512 ∧ 512 ≤ 512 ∧ effectiveOffset 512#16 = 512 := by decide
/-- Four lanes in another order, and two lanes only. -/
theorem witness_FieldReadsAsWordAndAsBytes (b0 b1 b2 b3 : Byte) :
    ([(1, b1), (0, b0), (2, b2), (3, b3)] : List (Nat × Byte)).Perm [(0, b0), (1, b1), (2, b2), (3, b3)] ∧
    (∀ p ∈ ([(3, b3), (1, b1)] : List (Nat × Byte)), p.1 < 4) ∧
    (([(3, b3), (1, b1)] : List (Nat × Byte)).map Prod.fst).Nodup := by
  exact ⟨List.Perm.swap _ _ _, by simp, by simp⟩
theorem witness_ParseByByteWritesAnyOrder :
    16 ≤ foreign.length ∧ foreign.length ≤ 512 ∧
    ((List.range foreign.length).reverse).Perm (List.range foreign.length) :=
  ⟨by decide +kernel, by decide +kernel, List.reverse_perm _⟩
theorem witness_PackParseInverse : (parse foreign).isSome = true ∧ parse (foreign.take 15) = none := by
  decide +kernel
theorem witness_ParseExpansionComputesParse : 16 ≤ (foreign.take 16).length ∧ (16 : Nat) ≤ 511 := by decide
theorem witness_CraftExpansionComputesCraft : [0#8] ≠ ([] : List Byte) ∧ [0#8].length ≤ 2 ^ 32 - 1 := by decide
/-- A container of 512 bytes, one of 513 that is accepted, one that is not. -/
theorem witness_UncraftExpansionComputesUncraft :
    (List.replicate 512 0#8).length ≤ 512 ∧ 512 < (List.replicate 513 0#8).length ∧
    uncraft (List.replicate 513 0#8) 1#32 0#8 = .err .signatureMismatch ∧
    uncraft (List.replicate 513 0#8) 0#32 0#8 ≠ .err .signatureMismatch := by decide +kernel
theorem witness_CraftUncraftRoundTrip : 1 ≤ [0#8].length ∧ [0#8].length ≤ Config.maxLen := by decide
theorem witness_RoundTripThroughTheBlock :
    1 ≤ [0#8, 1#8].length ∧ [0#8, 1#8].length ≤ Config.maxLen := by decide
theorem witness_ContainerLayout :
    craft [0xDE#8, 0xAD#8, 0xBE#8, 0xEF#8] 0x4D524C41#32 0xB3#8 = some (.ok k3) := test_craft_k3
/-- K1 and K2 of section 2.5: the same payload and signature, two keys. -/
theorem witness_HeaderIndependentOfKey :
    craft [0x61#8, 0x62#8, 0x63#8] 0x4D524C41#32 0x00#8 =
      some (.ok (pack 0x4D524C41#32 3#32 0x200#32 0x352441C2#32 ++ [0x61#8, 0x62#8, 0x63#8])) ∧
    craft [0x61#8, 0x62#8, 0x63#8] 0x4D524C41#32 0xB3#8 =
      some (.ok (pack 0x4D524C41#32 3#32 0x200#32 0x352441C2#32 ++ [0xD2#8, 0xD1#8, 0xD0#8])) ∧
    (0x00#8 : Byte) ≠ 0xB3#8 ∧
    514 < (pack 0x4D524C41#32 3#32 0x200#32 0x352441C2#32 ++ [0x61#8, 0x62#8, 0x63#8]).length := by
  decide +kernel
/-- Lists of every length exist. -/
theorem exists_longer_list (n : Nat) (h : 2 ^ 32 - 1 < n) : ∃ p : List Byte, 2 ^ 32 - 1 < p.length :=
  ⟨List.replicate n 0x00#8, by rw [List.length_replicate]; exact h⟩

/-- A payload of no bytes; and one longer than `MAXLEN`. -/
theorem witness_CraftErrorsExactly :
    ([] : List Byte).length = 0 ∧ ∃ p : List Byte, 2 ^ 32 - 1 < p.length :=
  ⟨rfl, exists_longer_list (2 ^ 32) (by decide)⟩
theorem witness_UncraftIgnoresRestOfHeader :
    (foreign ++ [7#8]).length = ([1#8, 2#8, 3#8, 4#8] ++ List.replicate 508 0x00#8 ++ [7#8]).length ∧
    slice (foreign ++ [7#8]) 0 4 = slice ([1#8, 2#8, 3#8, 4#8] ++ List.replicate 508 0x00#8 ++ [7#8]) 0 4 ∧
    (foreign ++ [7#8]).drop 512 = ([1#8, 2#8, 3#8, 4#8] ++ List.replicate 508 0x00#8 ++ [7#8]).drop 512 ∧
    foreign ++ [7#8] ≠ [1#8, 2#8, 3#8, 4#8] ++ List.replicate 508 0x00#8 ++ [7#8] := by decide +kernel
theorem witness_UnitsCommute : unitOf (.crcUpd 1#8) ≠ unitOf (.hdrWrb 600#16 1#8) := by decide
/-- Two instances, and a choice of the second. -/
theorem witness_InstancesIndependent : (1 : Nat) < [State.reset, dirty].length ∧ (0 : Nat) ≠ 1 := by decide

end Sys2Proof.Tests
end

section
/-! PROOFS. The state after reset (spec/10_state.md R26): its header image, and the commands that bring
each register to its reset value. -/

namespace Sys2Proof.Proofs.ResetState

open Sys2Proof.Machine Sys2Proof.Laws

/-! ## The header image after reset -/

/-- header_size is 0x200, so its lane 1, at offset 9, is the one byte of the image that is not zero. -/
theorem image_reset (a : Nat) : image Registers.reset a = if a = 9 then 0x02#8 else 0x00#8 := by
  by_cases h : a < 16
  · have fieldBytes : ∀ a < 16, image Registers.reset a = if a = 9 then 0x02#8 else 0x00#8 := by decide
    exact fieldBytes a h
  · have h16 : 16 ≤ a := Nat.not_lt.mp h
    have h9 : a ≠ 9 := by omega
    rw [image_padding _ h16, if_neg h9]

theorem memRead_reset {a : Nat} (h : a < 512) :
    memRead a State.reset = some (if a = 9 then 0x02#8 else 0x00#8) := by
  rw [memRead_lt h]
  exact congrArg some (image_reset a)

/-! ## The commands that leave a register as reset does -/

theorem effect_crcInit_crc (r : Registers) : (effect .crcInit r).crc = Registers.reset.crc := rfl

theorem effect_keySet_zero_key (r : Registers) : (effect (.keySet 0x00#8) r).key = Registers.reset.key := rfl

theorem effect_hdrNew_getField (r : Registers) (k : Field) :
    (effect .hdrNew r).getField k = Registers.reset.getField k := by
  cases k <;> rfl

/-- Settles O28: the six values are those of `Registers.reset`, the image is `memRead_reset`, and each of
the three commands completes (`exec_eq`) with the effect of reset on its own registers. -/
theorem resetStateValues : Obligations.ResetStateValues := by
  refine ⟨rfl, rfl, rfl, rfl, rfl, rfl, ?byteNine, ?otherBytes, fun s => ⟨?crcInit, ?keySet, ?hdrNew⟩⟩
  case byteNine => rw [memRead_reset (by decide), if_pos rfl]
  case otherBytes =>
    intro a ha h9
    rw [memRead_reset ha, if_neg h9]
  case crcInit => exact ⟨_, exec_eq .crcInit s, effect_crcInit_crc s.regs⟩
  case keySet => exact ⟨_, exec_eq (.keySet 0x00#8) s, effect_keySet_zero_key s.regs⟩
  case hdrNew => exact ⟨_, exec_eq .hdrNew s, effect_hdrNew_getField s.regs⟩

end Sys2Proof.Proofs.ResetState
end

section
/-! PROOFS. The header image and its byte accesses (spec/20_memory.md R29 to R33): which field and lane an
offset names, what a byte write changes, and a field seen as a word and as four bytes. -/

namespace Sys2Proof.Proofs.HeaderImage

open Sys2Proof.Machine Sys2Proof.Laws

/-! ## Offsets, fields and lanes -/

theorem fieldAtOffset_eq_fieldOfNumber {a : Nat} (h : a < 16) :
    fieldAtOffset a = some (fieldOfNumber (BitVec.ofNat 2 (a / 4))) := by
  have fields : ∀ a < 16, fieldAtOffset a = some (fieldOfNumber (BitVec.ofNat 2 (a / 4))) := by decide
  exact fields a h

/-- The offset of lane j of field number k is `4 * k + j`. -/
theorem fieldAtOffset_lane (k : BitVec 2) {j : Nat} (hj : j < 4) :
    fieldAtOffset (4 * k.toNat + j) = some (fieldOfNumber k) := by
  have hk : k.toNat < 4 := k.isLt
  have hdiv : (4 * k.toNat + j) / 4 = k.toNat := by omega
  rw [fieldAtOffset_eq_fieldOfNumber (by omega), hdiv, BitVec.ofNat_toNat, BitVec.setWidth_eq]

theorem laneAtOffset_lane (n : Nat) {j : Nat} (hj : j < 4) : laneAtOffset (4 * n + j) = j := by
  unfold laneAtOffset
  omega

/-- The operand that names lane j of field number k. -/
def laneOffset (k : BitVec 2) (j : Nat) : Offset := BitVec.ofNat 16 (4 * k.toNat + j)

theorem laneOffset_zero (j : Nat) : laneOffset 0#2 j = BitVec.ofNat 16 j :=
  congrArg (BitVec.ofNat 16) (Nat.zero_add j)

theorem effectiveOffset_laneOffset (k : BitVec 2) {j : Nat} (hj : j < 4) :
    effectiveOffset (laneOffset k j) = 4 * k.toNat + j := by
  have hk : k.toNat < 4 := k.isLt
  exact Nat.mod_eq_of_lt (by omega)

theorem offsetLegal_laneOffset (k : BitVec 2) {j : Nat} (hj : j < 4) :
    offsetLegal (laneOffset k j) = true := by
  have hk : k.toNat < 4 := k.isLt
  have hlt : effectiveOffset (laneOffset k j) < 512 := by
    rw [effectiveOffset_laneOffset k hj]
    omega
  exact decide_eq_true hlt

theorem image_lane (r : Registers) (k : BitVec 2) {j : Nat} (hj : j < 4) :
    image r (4 * k.toNat + j) = byteLane (r.getField (fieldOfNumber k)) j := by
  rw [image_field (fieldAtOffset_lane k hj), laneAtOffset_lane _ hj]

/-- Settles O32: each field's four bytes by `image_lane` at its field number, the rest is padding. -/
theorem imageLayout : Obligations.ImageLayout := fun r =>
  ⟨fun _ hj => ⟨image_lane r 0#2 hj, image_lane r 1#2 hj, image_lane r 2#2 hj, image_lane r 3#2 hj⟩,
    fun _ h16 _ => image_padding r h16⟩

/-! ## Reading after writing a byte -/

/-- A command with an illegal offset is answered `ERR_RANGE`, and no register is written. -/
theorem exec_of_not_wf {i : Instr} (h : i.wf = false) (s : State) :
    exec i s = .next { s with responses := s.responses ++ [errorResponse .range] } := by
  rw [exec_eq]
  cases i with
  | hdrRdb off =>
    have hoff : offsetLegal off = false := h
    simp [answer, hoff, effect]
  | hdrWrb off b =>
    have hoff : offsetLegal off = false := h
    have hge : 512 ≤ effectiveOffset off := Nat.not_lt.mp (of_decide_eq_false hoff)
    have hnone : fieldAtOffset (effectiveOffset off) = none := fieldAtOffset_padding (by omega)
    simp [answer, hoff, effect_hdrWrb_none hnone]
  | _ => cases h

/-- Every read after one lane of a field was replaced. -/
theorem memRead_setByteLane {a : Nat} {k : Field} (h : fieldAtOffset a = some k) (ha : a < 16) (b : Byte)
    (s : State) (a' : Nat) :
    memRead a' (s.setField k (setByteLane (s.regs.getField k) (laneAtOffset a) b)) =
      if a' = a then some b else memRead a' s := by
  by_cases h512 : a' < 512
  · rw [memRead_lt h512, memRead_lt h512, setField_regs, image_setByteLane _ h]
    exact apply_ite some ..
  · have hge : 512 ≤ a' := Nat.not_lt.mp h512
    have hne : a' ≠ a := by omega
    rw [memRead_ge hge, memRead_ge hge, if_neg hne]

/-- Settles O33: beyond the image by `memRead_ge` and `exec_of_not_wf`, within it by the two cases of
`memWrite_cases`, the padding (the state stays) and a field (`memRead_setByteLane`). -/
theorem imageReadAfterWrite : Obligations.ImageReadAfterWrite := by
  intro a b s
  refine ⟨fun h => memRead_lt h s, ?beyond, ?within⟩
  case beyond =>
    intro h
    refine ⟨memRead_ge h s, if_neg (Nat.not_lt.mpr h), ?_⟩
    rintro off rfl
    have hoff : offsetLegal off = false := decide_eq_false (Nat.not_lt.mpr h)
    exact ⟨exec_of_not_wf (i := .hdrRdb off) hoff s, exec_of_not_wf (i := .hdrWrb off b) hoff s⟩
  case within =>
    intro h
    obtain ⟨h512, -⟩ | ⟨h16, -, hw⟩ | ⟨k, hk, h16, hw⟩ := memWrite_cases a b s
    · omega
    · have hpad : memRead a s = some 0x00#8 := by rw [memRead_lt h, image_padding _ h16]
      exact ⟨s, hw, fun _ => by omega, fun _ => ⟨rfl, hpad⟩, fun _ _ => rfl, rfl, rfl⟩
    · have hread := memRead_setByteLane hk h16 b s
      refine ⟨_, hw, fun _ => ⟨(hread a).trans (if_pos rfl), ?formula⟩, fun _ => by omega,
        fun a' hne => (hread a').trans (if_neg hne), regs_setField_crc .., regs_setField_key ..⟩
      rintro k' rfl
      obtain rfl : fieldOfNumber (BitVec.ofNat 2 (a / 4)) = k :=
        Option.some.inj ((fieldAtOffset_eq_fieldOfNumber h16).symm.trans hk)
      rfl

/-! ## A field written as a word, read as bytes -/

/-- A legal command's word decodes to it. -/
theorem decode_encode_of_wf {i : Instr} (h : i.wf = true) : decode (encode i) = .instr i := by
  simp [encode, decode_commandWord, h]

theorem answer_hdrRdb_laneOffset (k : BitVec 2) {j : Nat} (hj : j < 4) (r : Registers) :
    answer (.hdrRdb (laneOffset k j)) r = okByte (byteLane (r.getField (fieldOfNumber k)) j) := by
  simp only [answer, offsetLegal_laneOffset k hj, if_true, effectiveOffset_laneOffset k hj, image_lane r k hj]

/-- Lane j of the fields numbered ks, read one after another. -/
def laneReads (ks : List (BitVec 2)) (j : Nat) : List Instr := ks.map fun k => .hdrRdb (laneOffset k j)

theorem answers_laneReads (ks : List (BitVec 2)) {j : Nat} (hj : j < 4) (r : Registers) :
    answers (laneReads ks j) r = ks.map fun k => okByte (byteLane (r.getField (fieldOfNumber k)) j) := by
  induction ks with
  | nil => rfl
  | cons k ks ih => exact congrArg₂ List.cons (answer_hdrRdb_laneOffset k hj r) ih

/-- Reading lanes after a command answers the lanes of the fields that the command left. -/
theorem issueAll_then_laneReads {i : Instr} (hi : i.wf = true) (ks : List (BitVec 2)) {j : Nat} (hj : j < 4)
    (s : State) :
    ∃ t, issueAll (i :: laneReads ks j) s =
      some (answer i s.regs ::
        ks.map (fun k => okByte (byteLane ((effect i s.regs).getField (fieldOfNumber k)) j)), t) := by
  have hreads : ∀ c ∈ laneReads ks j, c.wf = true :=
    List.forall_mem_map.mpr fun k _ => offsetLegal_laneOffset k hj
  have hwf : ∀ c ∈ i :: laneReads ks j, c.wf = true := List.forall_mem_cons.mpr ⟨hi, hreads⟩
  rw [issueAll_of_decode (fun c hc => decode_encode_of_wf (hwf c hc)) s, answers_cons,
    answers_laneReads ks hj]
  exact ⟨_, rfl⟩

theorem byteLane_zero (j : Nat) : byteLane 0#32 j = 0x00#8 := BitVec.extractLsb'_zero

/-! ## Byte writes to the lanes of one field -/

/-- The byte writes of `Obligations.FieldReadsAsWordAndAsBytes`: each byte to its lane of field number k. -/
def laneWrites (k : BitVec 2) (writes : List (Nat × Byte)) : List Instr :=
  writes.map fun p => .hdrWrb (laneOffset k p.1) p.2

/-- The word after each byte has replaced its lane, in order. -/
def writeLanes (writes : List (Nat × Byte)) (w : Word) : Word :=
  writes.foldl (fun w p => setByteLane w p.1 p.2) w

theorem setField_getField_self (r : Registers) (k : Field) : r.setField k (r.getField k) = r := by
  cases k <;> rfl

theorem setField_setField (r : Registers) (k : Field) (v v' : Word) :
    (r.setField k v).setField k v' = r.setField k v' := by
  cases k <;> rfl

theorem effect_hdrWrb_laneOffset (k : BitVec 2) {j : Nat} (hj : j < 4) (b : Byte) (r : Registers) :
    effect (.hdrWrb (laneOffset k j) b) r =
      r.setField (fieldOfNumber k) (setByteLane (r.getField (fieldOfNumber k)) j b) := by
  have hoff := effectiveOffset_laneOffset k hj
  rw [effect_hdrWrb_some (by rw [hoff, fieldAtOffset_lane k hj]), hoff, laneAtOffset_lane _ hj]

theorem effects_laneWrites (k : BitVec 2) {writes : List (Nat × Byte)} (h : ∀ p ∈ writes, p.1 < 4)
    (r : Registers) :
    effects (laneWrites k writes) r =
      r.setField (fieldOfNumber k) (writeLanes writes (r.getField (fieldOfNumber k))) := by
  induction writes generalizing r with
  | nil => exact (setField_getField_self r _).symm
  | cons p ps ih =>
    obtain ⟨hp, hps⟩ := List.forall_mem_cons.mp h
    calc effects (laneWrites k (p :: ps)) r
        = effects (laneWrites k ps)
            (r.setField (fieldOfNumber k) (setByteLane (r.getField (fieldOfNumber k)) p.1 p.2)) :=
          congrArg (effects (laneWrites k ps)) (effect_hdrWrb_laneOffset k hp p.2 r)
      _ = r.setField (fieldOfNumber k) (writeLanes (p :: ps) (r.getField (fieldOfNumber k))) := by
          rw [ih hps, setField_setField, regs_setField_getField]
          rfl

/-- Byte writes to the lanes of one field complete, and replace that field alone. -/
theorem issueAll_laneWrites (k : BitVec 2) {writes : List (Nat × Byte)} (h : ∀ p ∈ writes, p.1 < 4)
    (s : State) :
    ∃ rs t, issueAll (laneWrites k writes) s = some (rs, t) ∧
      t.regs = s.regs.setField (fieldOfNumber k)
        (writeLanes writes (s.regs.getField (fieldOfNumber k))) := by
  have hdecode : ∀ i ∈ laneWrites k writes, decode (encode i) = .instr i :=
    List.forall_mem_map.mpr fun p hp => decode_encode_of_wf (offsetLegal_laneOffset k (h p hp))
  exact ⟨_, _, issueAll_of_decode hdecode s, effects_laneWrites k h s.regs⟩

theorem byteLane_writeLanes_of_not_mem {writes : List (Nat × Byte)} (h : ∀ p ∈ writes, p.1 < 4) (w : Word)
    {j : Nat} (hj : j < 4) (hmem : j ∉ writes.map Prod.fst) :
    byteLane (writeLanes writes w) j = byteLane w j := by
  induction writes generalizing w with
  | nil => rfl
  | cons p ps ih =>
    obtain ⟨hp, hps⟩ := List.forall_mem_cons.mp h
    obtain ⟨hne, hnot⟩ := List.ne_and_not_mem_of_not_mem_cons hmem
    exact (ih hps _ hnot).trans (byteLane_setByteLane_ne w hp hj hne p.2)

theorem byteLane_writeLanes_of_mem {writes : List (Nat × Byte)} (h : ∀ p ∈ writes, p.1 < 4)
    (hnodup : (writes.map Prod.fst).Nodup) (w : Word) {p : Nat × Byte} (hp : p ∈ writes) :
    byteLane (writeLanes writes w) p.1 = p.2 := by
  induction writes generalizing w with
  | nil => cases hp
  | cons q qs ih =>
    obtain ⟨hq, hqs⟩ := List.forall_mem_cons.mp h
    obtain ⟨hnot, hnodup'⟩ := List.nodup_cons.mp hnodup
    obtain rfl | hp' := List.mem_cons.mp hp
    · exact (byteLane_writeLanes_of_not_mem hqs _ hq hnot).trans (byteLane_setByteLane_same w hq p.2)
    · exact ih hqs hnodup' _ hp'

/-- The lanes of `le32dec` of four bytes are the bytes. -/
theorem byteLane_le32dec {b0 b1 b2 b3 : Byte} {p : Nat × Byte}
    (hp : p ∈ [(0, b0), (1, b1), (2, b2), (3, b3)]) : byteLane (le32dec [b0, b1, b2, b3]) p.1 = p.2 := by
  apply BitVec.eq_of_getLsbD_eq
  intro i hi
  simp only [List.mem_cons, List.not_mem_nil, or_false] at hp
  obtain rfl | rfl | rfl | rfl := hp <;> interval_cases i <;> simp [byteLane, le32dec, zext32]

/-- Four bytes written to the four lanes, in any order, make their little-endian word. -/
theorem writeLanes_perm {writes : List (Nat × Byte)} {b0 b1 b2 b3 : Byte}
    (hperm : writes.Perm [(0, b0), (1, b1), (2, b2), (3, b3)]) (w : Word) :
    (∀ p ∈ writes, p.1 < 4) ∧ writeLanes writes w = le32dec [b0, b1, b2, b3] := by
  have hlanes : (writes.map Prod.fst).Perm (List.range 4) := hperm.map Prod.fst
  have hlt : ∀ p ∈ writes, p.1 < 4 := fun p hp =>
    List.mem_range.mp (hlanes.mem_iff.mp (List.mem_map_of_mem hp))
  refine ⟨hlt, word_ext_lanes fun j hj => ?_⟩
  obtain ⟨p, hp, rfl⟩ := List.mem_map.mp (hlanes.mem_iff.mpr (List.mem_range.mpr hj))
  have hnodup : (writes.map Prod.fst).Nodup := hlanes.nodup_iff.mpr List.nodup_range
  rw [byteLane_writeLanes_of_mem hlt hnodup w hp, byteLane_le32dec (hperm.mem_iff.mp hp)]

/-- Settles O34: words read as bytes by `issueAll_then_laneReads`, bytes read as a word by
`writeLanes_perm`, and some of the lanes by the two lemmas about `byteLane` of `writeLanes`. -/
theorem fieldReadsAsWordAndAsBytes : Obligations.FieldReadsAsWordAndAsBytes := by
  refine ⟨?wordThenBytes, ?bytesThenWord, ?someLanes⟩
  case wordThenBytes =>
    intro s w j hj
    obtain ⟨t1, h1⟩ := issueAll_then_laneReads (i := .hdrSig w) rfl [0#2] hj s
    obtain ⟨t2, h2⟩ := issueAll_then_laneReads (i := .hdrCsz w) rfl [1#2] hj s
    obtain ⟨t3, h3⟩ := issueAll_then_laneReads (i := .hdrChk w) rfl [3#2] hj s
    obtain ⟨t4, h4⟩ := issueAll_then_laneReads (i := .hdrNew) rfl [0#2, 1#2, 2#2, 3#2] hj s
    have hzero : responseByte (okByte (byteLane 0#32 j)) = 0x00#8 := by
      rw [responseByte_okByte, byteLane_zero]
    simp only [laneReads, List.map_cons, List.map_nil, laneOffset_zero] at h1 h4
    exact ⟨t1, t2, t3, t4, _, _, _, _, _, _, _, _, h1, h2, h3, responseByte_okByte _,
      responseByte_okByte _, responseByte_okByte _, h4, hzero, hzero, responseByte_okByte _, hzero⟩
  case bytesThenWord =>
    intro s k b0 b1 b2 b3 writes hperm
    obtain ⟨hlt, hword⟩ := writeLanes_perm hperm (s.regs.getField (fieldOfNumber k))
    obtain ⟨rs, t, hissue, hregs⟩ := issueAll_laneWrites k hlt s
    rw [hword] at hregs
    have hanswer : answer (.hdrRdf (fieldOfNumber k)) t.regs = okWord (le32dec [b0, b1, b2, b3]) := by
      rw [hregs]
      exact congrArg okWord (regs_setField_getField ..)
    have hread := issue_of_decode (decode_encode_of_wf (i := .hdrRdf (fieldOfNumber k)) rfl) t
    rw [hanswer] at hread
    exact ⟨rs, t, _, hissue, hregs, hread⟩
  case someLanes =>
    intro s k writes hlt hnodup
    obtain ⟨rs, t, hissue, hregs⟩ := issueAll_laneWrites k hlt s
    exact ⟨rs, t, _, hissue, hregs, fun _ hp => byteLane_writeLanes_of_mem hlt hnodup _ hp,
      fun _ hj hmem => byteLane_writeLanes_of_not_mem hlt _ hj hmem⟩

end Sys2Proof.Proofs.HeaderImage
end

section
/-! PROOFS. The four outcomes of decoding (spec/30_encoding.md R48): by the opcode and the operand word, by
the rows of the opcode table, and by the numbers of R49 and R50. -/

namespace Sys2Proof.Proofs.DecodeOutcomes

open Sys2Proof.Machine Sys2Proof.Laws

/-! ## Command words under a mask -/

@[simp] theorem commandWord_inj {op op' : BitVec 8} {arg arg' : Word} :
    commandWord op arg = commandWord op' arg' ↔ op = op' ∧ arg = arg' := by
  constructor
  · intro h
    have hop := congrArg opField h
    have harg := congrArg argField h
    rw [opField_commandWord, opField_commandWord] at hop
    rw [argField_commandWord, argField_commandWord] at harg
    exact ⟨hop, harg⟩
  · rintro ⟨rfl, rfl⟩
    rfl

theorem commandWord_and (op op' : BitVec 8) (arg arg' : Word) :
    commandWord op arg &&& commandWord op' arg' = commandWord (op &&& op') (arg &&& arg') := by
  apply BitVec.eq_of_getLsbD_eq
  intro n _
  simp only [BitVec.getLsbD_and, getLsbD_commandWord]
  split <;> rfl

theorem rowMask_eq (o : Op) : rowMask o = commandWord (BitVec.allOnes 8) (reservedBits (opFormat o)) := by
  cases o <;> rfl

theorem rowMatch_eq (o : Op) : rowMatch o = commandWord (opCode o) 0#32 := by
  cases o <;> rfl

theorem rowOpcodeMask_eq : rowOpcodeMask = commandWord (BitVec.allOnes 8) 0#32 := rfl

theorem rowOpcodeMatch_eq (o : Op) : rowOpcodeMatch o = commandWord (opCode o) 0#32 := by
  cases o <;> rfl

/-- A word has a row's "opcode_match" when it has the row's opcode. -/
theorem and_rowOpcodeMask_eq_iff {op : BitVec 8} {arg : Word} {o : Op} :
    commandWord op arg &&& rowOpcodeMask = rowOpcodeMatch o ↔ opCode o = op := by
  rw [rowOpcodeMask_eq, rowOpcodeMatch_eq, commandWord_and, BitVec.and_allOnes, BitVec.and_zero,
    commandWord_inj, and_iff_left rfl, eq_comm]

/-- A word passes a row's "mask" and "match" when it has the row's opcode and zeros in the reserved bits. -/
theorem and_rowMask_eq_iff {op : BitVec 8} {arg : Word} {o : Op} :
    commandWord op arg &&& rowMask o = rowMatch o ↔
      opCode o = op ∧ arg &&& reservedBits (opFormat o) = 0#32 := by
  rw [rowMask_eq, rowMatch_eq, commandWord_and, BitVec.and_allOnes, commandWord_inj, eq_comm]

/-! ## The outcomes, by the opcode and the operand word -/

@[simp] theorem opCode_inj {o o' : Op} : opCode o = opCode o' ↔ o = o' := by
  constructor
  · intro h
    have hfound := congrArg opOfCode h
    rw [opOfCode_opCode, opOfCode_opCode] at hfound
    exact Option.some.inj hfound
  · exact congrArg opCode

theorem decode_eq_error_opcode_iff {op : BitVec 8} {arg : Word} :
    decode (commandWord op arg) = .error .opcode ↔ ∀ o, opCode o ≠ op := by
  refine ⟨?_, decode_unassigned arg⟩
  rintro h o rfl
  rw [decode_commandWord] at h
  split_ifs at h <;> cases h

theorem decode_eq_error_operand_iff {op : BitVec 8} {arg : Word} :
    decode (commandWord op arg) = .error .operand ↔
      ∃ o, opCode o = op ∧ arg &&& reservedBits (opFormat o) ≠ 0#32 := by
  by_cases hop : ∃ o, opCode o = op
  · obtain ⟨o, rfl⟩ := hop
    simp only [opCode_inj, exists_eq_left, decode_commandWord]
    split_ifs with hres hwf <;> simp [hres]
  · have hnone := not_exists.mp hop
    simp [decode_unassigned arg hnone, hnone]

theorem decode_eq_error_range_iff {op : BitVec 8} {arg : Word} :
    decode (commandWord op arg) = .error .range ↔
      ∃ o, opCode o = op ∧ arg &&& reservedBits (opFormat o) = 0#32 ∧ (instrOf o arg).wf = false := by
  by_cases hop : ∃ o, opCode o = op
  · obtain ⟨o, rfl⟩ := hop
    simp only [opCode_inj, exists_eq_left, decode_commandWord]
    split_ifs with hres hwf
    · simp [hres]
    · simp [hwf]
    · simpa [hwf] using hres
  · have hnone := not_exists.mp hop
    simp [decode_unassigned arg hnone, hnone]

/-! ## What a step does with each outcome -/

theorem step_present_of_error {cmd : CmdWord} {e : CommandError} (h : decode cmd = .error e) (s : State) :
    step (s.present cmd) = .next { s with responses := s.responses ++ [errorResponse e] } := by
  rw [step_present, h]
  rfl

theorem step_present_of_instr {cmd : CmdWord} {i : Instr} (h : decode cmd = .instr i) (s : State) :
    step (s.present cmd) = exec i s := by
  rw [step_present, h]

/-! ## The outcomes, by the rows of the opcode table -/

/-- Only the two commands with an image offset can be out of range. -/
theorem wf_instrOf_eq_false_iff {o : Op} {arg : Word} :
    (instrOf o arg).wf = false ↔
      (o = .hdrRdb ∧ 512 ≤ (offsetOperandA arg).toNat) ∨ (o = .hdrWrb ∧ 512 ≤ (offsetOperandAB arg).toNat) := by
  cases o <;> simp [instrOf, Instr.wf]

/-- The offset of format A, read from the whole command word. -/
theorem extractLsb'_commandWord_offsetA (op : BitVec 8) (arg : Word) :
    (commandWord op arg).extractLsb' 0 16 = offsetOperandA arg := by
  apply BitVec.eq_of_getLsbD_eq
  intro n hn
  have h32 : n < 32 := by omega
  simp [offsetOperandA, getLsbD_commandWord, hn, h32]

/-- The offset of format AB, read from the whole command word. -/
theorem extractLsb'_commandWord_offsetAB (op : BitVec 8) (arg : Word) :
    (commandWord op arg).extractLsb' 8 16 = offsetOperandAB arg := by
  apply BitVec.eq_of_getLsbD_eq
  intro n hn
  have h32 : 8 + n < 32 := by omega
  simp [offsetOperandAB, getLsbD_commandWord, hn, h32]

theorem decode_eq_error_range_iff_row {op : BitVec 8} {arg : Word} :
    decode (commandWord op arg) = .error .range ↔
      (commandWord op arg &&& rowMask .hdrRdb = rowMatch .hdrRdb ∧ 512 ≤ (offsetOperandA arg).toNat) ∨
      (commandWord op arg &&& rowMask .hdrWrb = rowMatch .hdrWrb ∧ 512 ≤ (offsetOperandAB arg).toNat) := by
  simp only [decode_eq_error_range_iff, wf_instrOf_eq_false_iff, and_rowMask_eq_iff]
  constructor
  · rintro ⟨o, hop, hres, ⟨rfl, hoff⟩ | ⟨rfl, hoff⟩⟩
    · exact .inl ⟨⟨hop, hres⟩, hoff⟩
    · exact .inr ⟨⟨hop, hres⟩, hoff⟩
  · rintro (⟨⟨hop, hres⟩, hoff⟩ | ⟨⟨hop, hres⟩, hoff⟩)
    · exact ⟨.hdrRdb, hop, hres, .inl ⟨rfl, hoff⟩⟩
    · exact ⟨.hdrWrb, hop, hres, .inr ⟨rfl, hoff⟩⟩

/-- A word that decodes to an instruction passes its row, and its operand word holds the operands. -/
theorem row_of_decode_eq_instr {cmd : CmdWord} {i : Instr} (h : decode cmd = .instr i) :
    cmd &&& rowMask (opOfInstr i) = rowMatch (opOfInstr i) ∧ i = instrOf (opOfInstr i) (argField cmd) := by
  obtain ⟨o, hcmd, hres, hi, -⟩ := decode_instr_inv h
  have hop : opOfInstr i = o := by rw [hi, opOfInstr_instrOf]
  rw [hop]
  refine ⟨?_, hi⟩
  rw [hcmd]
  exact TableRow.masked_commandWord o hres

/-- Settles O4: each error by its lemma about the opcode and the operand word, turned into masks and matches
by `and_rowOpcodeMask_eq_iff` and `and_rowMask_eq_iff`. -/
theorem decodeOutcomesByTable : Obligations.DecodeOutcomesByTable := by
  intro cmd
  refine ⟨?opcode, ?operand, ?range, fun i => row_of_decode_eq_instr,
    fun s => ⟨fun e h => step_present_of_error h s, fun i h => step_present_of_instr h s⟩⟩
  all_goals rw [← commandWord_fields cmd]
  case opcode => simp only [decode_eq_error_opcode_iff, ne_eq, and_rowOpcodeMask_eq_iff]
  case operand =>
    rw [decode_eq_error_operand_iff]
    refine exists_congr fun o => ?_
    rw [and_rowOpcodeMask_eq_iff]
    refine and_congr_right fun hop => not_congr ?_
    rw [and_rowMask_eq_iff, and_iff_right hop]
  case range =>
    rw [extractLsb'_commandWord_offsetA, extractLsb'_commandWord_offsetAB]
    exact decode_eq_error_range_iff_row

/-! ## The assigned opcodes by number (R47, R49) -/

/-- The numbers of the twelve opcodes: three of the CRC unit, seven of the HDR unit, two of the XOR unit. -/
theorem assigned_iff {op : BitVec 8} :
    (∃ o, opCode o = op) ↔
      (0x10 ≤ op.toNat ∧ op.toNat ≤ 0x12) ∨ (0x20 ≤ op.toNat ∧ op.toNat ≤ 0x26) ∨
        (0x30 ≤ op.toNat ∧ op.toNat ≤ 0x31) := by
  constructor
  · rintro ⟨o, rfl⟩
    cases o <;> decide
  · intro h
    have hcodes : allOps.map (fun o => (opCode o).toNat) =
        [0x10, 0x11, 0x12, 0x20, 0x21, 0x22, 0x23, 0x24, 0x25, 0x26, 0x30, 0x31] := rfl
    have hmem : op.toNat ∈ allOps.map (fun o => (opCode o).toNat) := by
      rw [hcodes]
      simp only [List.mem_cons, List.not_mem_nil, or_false]
      omega
    obtain ⟨o, -, ho⟩ := List.mem_map.mp hmem
    exact ⟨o, BitVec.eq_of_toNat_eq ho⟩

/-- The four ranges of R49 are the numbers that `assigned_iff` leaves over. -/
theorem unassigned_iff {op : BitVec 8} :
    (∀ o, opCode o ≠ op) ↔
      op.toNat ≤ 0x0F ∨ (0x13 ≤ op.toNat ∧ op.toNat ≤ 0x1F) ∨ (0x27 ≤ op.toNat ∧ op.toNat ≤ 0x2F) ∨
        0x32 ≤ op.toNat := by
  have hnone : (∀ o, opCode o ≠ op) ↔ ¬ ∃ o, opCode o = op := not_exists.symm
  rw [hnone, assigned_iff]
  omega

/-- Settles O5: the opcode error is an unassigned opcode, and `unassigned_iff` gives its four ranges. -/
theorem unassignedOpcodesAnswerErrOpcode : Obligations.UnassignedOpcodesAnswerErrOpcode :=
  ⟨fun _ _ => decode_eq_error_opcode_iff.trans unassigned_iff,
    fun s _ _ h => step_present_of_error h s, by decide, by decide⟩

/-! ## The reserved bits as a bound on the operand word (R50) -/

/-- The operand bits of a format: the bits below its reserved ones. -/
def operandWidth : Format → Nat
  | .n => 0
  | .b => 8
  | .w => 32
  | .f => 2
  | .a => 16
  | .ab => 24

theorem reservedBits_eq (fmt : Format) : reservedBits fmt = BitVec.allOnes 32 <<< operandWidth fmt := by
  cases fmt <;> rfl

theorem getLsbD_allOnes_shiftLeft {k i : Nat} (hi : i < 32) :
    (BitVec.allOnes 32 <<< k).getLsbD i = true ↔ k ≤ i := by
  have hsub : i - k < 32 := by omega
  rw [BitVec.getLsbD_shiftLeft, BitVec.getLsbD_allOnes]
  simp [hi, hsub]

theorem and_allOnes_shiftLeft_eq_zero_iff {arg : Word} {k : Nat} :
    arg &&& (BitVec.allOnes 32 <<< k) = 0#32 ↔ arg.toNat < 2 ^ k := by
  rw [and_eq_zero_iff]
  constructor
  · intro h
    apply Nat.lt_pow_two_of_testBit
    intro i hk
    by_cases hi : i < 32
    · exact h i hi ((getLsbD_allOnes_shiftLeft hi).mpr hk)
    · exact BitVec.getLsbD_of_ge arg i (Nat.not_lt.mp hi)
  · intro h i hi hmask
    have hk : k ≤ i := (getLsbD_allOnes_shiftLeft hi).mp hmask
    exact Nat.testBit_eq_false_of_lt (h.trans_le (Nat.pow_le_pow_right Nat.two_pos hk))

/-- Some reserved bit of a format is 1 exactly when the operand word does not fit its operand bits. -/
theorem and_reservedBits_ne_zero_iff {fmt : Format} {arg : Word} :
    arg &&& reservedBits fmt ≠ 0#32 ↔ 2 ^ operandWidth fmt ≤ arg.toNat := by
  rw [reservedBits_eq, ne_eq, and_allOnes_shiftLeft_eq_zero_iff, Nat.not_lt]

theorem one_le_toNat_iff {arg : Word} : 1 ≤ arg.toNat ↔ arg ≠ 0#32 := by
  rw [Nat.one_le_iff_ne_zero, ne_eq, ne_eq, BitVec.toNat_eq, BitVec.toNat_zero]

/-- Settles O6: the operand error is an assigned opcode with a reserved bit 1, which
`and_reservedBits_ne_zero_iff` makes a bound on the operand word; the opcodes are then taken one by one. -/
theorem reservedBitsAnswerErrOperand : Obligations.ReservedBitsAnswerErrOperand := by
  refine ⟨fun op arg => ?_, fun s op arg h => step_present_of_error h s⟩
  simp only [decode_eq_error_operand_iff, and_reservedBits_ne_zero_iff, ← one_le_toNat_iff (arg := arg)]
  constructor
  · rintro ⟨o, rfl, h⟩
    cases o with
    | crcInit | crcFin | hdrNew => exact .inl ⟨by decide, h⟩
    | crcUpd | keySet | xorB => exact .inr (.inl ⟨by decide, h⟩)
    | hdrSig | hdrCsz | hdrChk => exact absurd arg.isLt (Nat.not_lt.mpr h)
    | hdrRdf => exact .inr (.inr (.inl ⟨rfl, h⟩))
    | hdrRdb => exact .inr (.inr (.inr (.inl ⟨rfl, h⟩)))
    | hdrWrb => exact .inr (.inr (.inr (.inr ⟨rfl, h⟩)))
  · simp only [List.mem_cons, List.not_mem_nil, or_false]
    rintro (⟨rfl | rfl | rfl, h⟩ | ⟨rfl | rfl | rfl, h⟩ | ⟨rfl, h⟩ | ⟨rfl, h⟩ | ⟨rfl, h⟩)
    · exact ⟨.crcInit, rfl, h⟩
    · exact ⟨.crcFin, rfl, h⟩
    · exact ⟨.hdrNew, rfl, h⟩
    · exact ⟨.crcUpd, rfl, h⟩
    · exact ⟨.keySet, rfl, h⟩
    · exact ⟨.xorB, rfl, h⟩
    · exact ⟨.hdrRdf, rfl, h⟩
    · exact ⟨.hdrRdb, rfl, h⟩
    · exact ⟨.hdrWrb, rfl, h⟩

end Sys2Proof.Proofs.DecodeOutcomes
end

section
/-! PROOFS. The CRC unit (spec/40_crc.md): the equal forms of the byte update (R64, R65), and what a step on
each of its three opcodes does with every operand word (R61 to R63). -/

namespace Sys2Proof.Proofs.CrcUnit

open Sys2Proof.Machine Sys2Proof.Laws Sys2Proof.Proofs.DecodeOutcomes

/-! ## The bit-reduction step -/

theorem crcBits_succ (n : Nat) (c : Word) : crcBits (n + 1) c = crcBit (crcBits n c) := by
  induction n generalizing c with
  | zero => rfl
  | succ n ih => exact ih (crcBit c)

theorem crcBit_eq_ushiftRight {c : Word} (h : c.getLsbD 0 = false) : crcBit c = c >>> 1 := by
  rw [crcBit, h]
  rfl

/-- No step reduces while the bits that fall out are zero (R64, reason). -/
theorem crcBits_eq_ushiftRight (n : Nat) {c : Word} (h : ∀ i < n, c.getLsbD i = false) :
    crcBits n c = c >>> n := by
  induction n with
  | zero => exact (BitVec.ushiftRight_zero c).symm
  | succ n ih =>
    have hbit : (c >>> n).getLsbD 0 = false := by
      rw [BitVec.getLsbD_ushiftRight]
      exact h n (Nat.lt_succ_self n)
    rw [crcBits_succ, ih fun i hi => h i (Nat.lt_succ_of_lt hi), crcBit_eq_ushiftRight hbit,
      BitVec.shiftRight_add]

/-! ## The table form (R64) -/

theorem zext32_ushiftRight_eight (b : Byte) : zext32 b >>> 8 = 0#32 := by
  apply BitVec.eq_of_getLsbD_eq
  intro i _
  simp [zext32]

/-- The low byte goes through the table, and the bits above it, whose low byte is zero, only shift. -/
theorem crcBits_eight (x : Word) : crcBits 8 x = crcTable (x.extractLsb' 0 8) ^^^ (x >>> 8) := by
  have hhigh : ∀ i < 8, (zext32 (x.extractLsb' 0 8) ^^^ x).getLsbD i = false := by
    intro i hi
    have h32 : i < 32 := by omega
    simp [zext32, hi, h32]
  calc crcBits 8 x
      = crcBits 8 (zext32 (x.extractLsb' 0 8) ^^^ (zext32 (x.extractLsb' 0 8) ^^^ x)) := by
        rw [← BitVec.xor_assoc, BitVec.xor_self, BitVec.zero_xor]
    _ = crcTable (x.extractLsb' 0 8) ^^^ ((zext32 (x.extractLsb' 0 8) ^^^ x) >>> 8) := by
        rw [crcBits_xor, crcBits_eq_ushiftRight 8 hhigh, crcTable]
    _ = crcTable (x.extractLsb' 0 8) ^^^ (x >>> 8) := by
        rw [BitVec.ushiftRight_xor_distrib, zext32_ushiftRight_eight, BitVec.zero_xor]

/-- Settles O38: `crcBits_eight`, whose shifted part holds nothing of the byte. -/
theorem crcTableFormIsBitForm : Obligations.CrcTableFormIsBitForm := by
  intro c b
  rw [crcBits_eight, BitVec.ushiftRight_xor_distrib, zext32_ushiftRight_eight, BitVec.xor_zero, crcByte]

/-! ## The bit-serial form (R65) -/

/-- A data bit that is in the register as well cancels out of the choice to reduce. -/
theorem crcSerialBit_xor (x y : Word) : crcSerialBit (x ^^^ y) (y.getLsbD 0) = crcBit x ^^^ (y >>> 1) := by
  have hchoice : ((x ^^^ y).getLsbD 0 ^^ y.getLsbD 0) = x.getLsbD 0 := by
    rw [BitVec.getLsbD_xor, Bool.xor_assoc, Bool.xor_self, Bool.xor_false]
  rw [crcSerialBit, crcBit, hchoice, BitVec.ushiftRight_xor_distrib]
  split
  · ac_rfl
  · rfl

/-- After n data bits the register is that of the bit form, XORed with the bits still to come. -/
theorem foldl_crcSerialBit (n : Nat) (c : Word) (b : Byte) :
    (List.range n).foldl (fun c k => crcSerialBit c (b.getLsbD k)) c =
      crcBits n (c ^^^ zext32 b) ^^^ (zext32 b >>> n) := by
  induction n with
  | zero =>
    rw [List.range_zero, List.foldl_nil, crcBits, BitVec.ushiftRight_zero, BitVec.xor_assoc, BitVec.xor_self,
      BitVec.xor_zero]
  | succ n ih =>
    have hbit : b.getLsbD n = (zext32 b >>> n).getLsbD 0 := by
      have hlt : b.getLsbD n = true → n < 32 := fun h => (BitVec.lt_of_getLsbD h).trans (by decide)
      simpa [zext32] using hlt
    rw [List.range_succ, List.foldl_concat, ih, hbit, crcSerialBit_xor, crcBits_succ, BitVec.shiftRight_add]

/-- Settles O39: after all eight bits (`foldl_crcSerialBit`) none is still to come, and O38 gives the byte
update. -/
theorem crcSerialFormIsByteForm : Obligations.CrcSerialFormIsByteForm := by
  intro c b
  rw [crcTableFormIsBitForm, crcSerial, foldl_crcSerialBit, zext32_ushiftRight_eight, BitVec.xor_zero]

/-! ## The commands (R61 to R63) -/

/-- A step on an opcode that has no illegal operand performs the command when the reserved bits are zero,
and answers `ERR_OPERAND` otherwise (spec/30_encoding.md R48). -/
theorem step_present_commandWord {o : Op} {arg : Word} (hwf : (instrOf o arg).wf = true) (s : State) :
    step (s.present (commandWord (opCode o) arg)) =
      if arg &&& reservedBits (opFormat o) = 0#32 then exec (instrOf o arg) s
      else .next { s with responses := s.responses ++ [errorResponse .operand] } := by
  have hdecode := decode_commandWord o arg
  rw [if_pos hwf] at hdecode
  split_ifs with hres
  · exact step_present_of_instr (hdecode.trans (if_neg (not_not_intro hres))) s
  · exact step_present_of_error (hdecode.trans (if_pos hres)) s

theorem and_reservedBits_n_eq_zero_iff {arg : Word} : arg &&& reservedBits .n = 0#32 ↔ arg = 0#32 :=
  not_iff_not.mp (and_reservedBits_ne_zero_iff.trans one_le_toNat_iff)

theorem and_reservedBits_b_eq_zero_iff {arg : Word} :
    arg &&& reservedBits .b = 0#32 ↔ arg.toNat < 2 ^ 8 :=
  not_iff_not.mp (and_reservedBits_ne_zero_iff.trans Nat.not_lt.symm)

/-- Settles O7: the effect by `exec_eq`, the operand words by format N. -/
theorem crcInitStartsMessage : Obligations.CrcInitStartsMessage := fun s =>
  ⟨exec_eq .crcInit s, fun _ =>
    (step_present_commandWord (o := .crcInit) rfl s).trans (if_congr and_reservedBits_n_eq_zero_iff rfl rfl)⟩

/-- Settles O8: the effect by `exec_eq`, the operand words by format B. -/
theorem crcUpdTakesByte : Obligations.CrcUpdTakesByte := fun s =>
  ⟨fun b => exec_eq (.crcUpd b) s, fun _ =>
    (step_present_commandWord (o := .crcUpd) rfl s).trans (if_congr and_reservedBits_b_eq_zero_iff rfl rfl)⟩

/-- Settles O9: the answer and the unchanged registers by `exec_eq`, the operand words by format N. -/
theorem crcFinAnswersChecksum : Obligations.CrcFinAnswersChecksum := fun s =>
  ⟨exec_eq .crcFin s, fun _ =>
    (step_present_commandWord (o := .crcFin) rfl s).trans (if_congr and_reservedBits_n_eq_zero_iff rfl rfl)⟩

end Sys2Proof.Proofs.CrcUnit
end

section
/-! PROOFS. The HDR unit (spec/41_header.md): what a step on each of its seven opcodes does with every operand
word (R70 to R76), who writes `HHSZ` and that nothing acts on its value (R77), and the image as the serialised
header (R78). -/

namespace Sys2Proof.Proofs.HdrUnit

open Sys2Proof.Machine Sys2Proof.Laws
open Sys2Proof.Proofs.ResetState Sys2Proof.Proofs.HeaderImage Sys2Proof.Proofs.DecodeOutcomes
open Sys2Proof.Proofs.CrcUnit

/-! ## Operand words -/

theorem and_reservedBits_eq_zero_iff {fmt : Format} {arg : Word} :
    arg &&& reservedBits fmt = 0#32 ↔ arg.toNat < 2 ^ operandWidth fmt :=
  not_iff_not.mp (and_reservedBits_ne_zero_iff.trans Nat.not_lt.symm)

/-- A step on an assigned opcode performs the command when the reserved bits are zero. An offset out of range
needs no case of its own: the decoder's `ERR_RANGE` (R48) is the command's own answer (R75, R76). -/
theorem step_present_assigned (o : Op) (arg : Word) (s : State) :
    step (s.present (commandWord (opCode o) arg)) =
      if arg &&& reservedBits (opFormat o) = 0#32 then exec (instrOf o arg) s
      else .next { s with responses := s.responses ++ [errorResponse .operand] } := by
  cases hwf : (instrOf o arg).wf with
  | true => exact step_present_commandWord hwf s
  | false =>
    split_ifs with hres
    · have hrange : decode (commandWord (opCode o) arg) = .error .range :=
        decode_eq_error_range_iff.mpr ⟨o, rfl, hres, hwf⟩
      rw [step_present_of_error hrange, exec_of_not_wf hwf]
    · exact step_present_of_error (decode_eq_error_operand_iff.mpr ⟨o, rfl, hres⟩) s

/-! ## Byte reads and byte writes -/

theorem exec_next_inv {i : Instr} {s t : State} (h : exec i s = .next t) :
    t = { s with regs := effect i s.regs, responses := s.responses ++ [answer i s.regs] } :=
  Host.Outcome.next.inj (h.symm.trans (exec_eq i s))

theorem exec_hdrRdb_of_lt {off : Offset} (h : off.toNat < 512) (s : State) :
    exec (.hdrRdb off) s = .next { s with
      responses := s.responses ++ [okByte (image s.regs off.toNat)] } := by
  have hanswer : answer (.hdrRdb off) s.regs = okByte (image s.regs off.toNat) :=
    if_pos (offsetLegal_eq_true.mpr h)
  rw [exec_eq, hanswer]
  rfl

theorem answer_hdrWrb_of_lt {off : Offset} (h : off.toNat < 512) (b : Byte) (r : Registers) :
    answer (.hdrWrb off b) r = okNone :=
  if_pos (offsetLegal_eq_true.mpr h)

/-- A byte write below 16 replaces byte lane `off & 3` of field `off >> 2` (R76, spec/20_memory.md R31). -/
theorem exec_hdrWrb_field {off : Offset} (h : off.toNat < 16) (b : Byte) (s : State) {k : Field}
    (hk : k = fieldOfNumber (BitVec.ofNat 2 (off.toNat / 4))) :
    exec (.hdrWrb off b) s = .next { s with
      regs := s.regs.setField k (setByteLane (s.regs.getField k) (laneAtOffset off.toNat) b)
      responses := s.responses ++ [okNone] } := by
  have hfield : fieldAtOffset (effectiveOffset off) = some k := by
    rw [hk]
    exact fieldAtOffset_eq_fieldOfNumber h
  rw [exec_eq, answer_hdrWrb_of_lt (by omega), effect_hdrWrb_some hfield]
  rfl

/-- A byte written to the padding is discarded (R76). -/
theorem exec_hdrWrb_padding {off : Offset} (h16 : 16 ≤ off.toNat) (h512 : off.toNat < 512) (b : Byte)
    (s : State) : exec (.hdrWrb off b) s = .next { s with responses := s.responses ++ [okNone] } := by
  have hnone : fieldAtOffset (effectiveOffset off) = none := fieldAtOffset_padding h16
  rw [exec_eq, answer_hdrWrb_of_lt h512, effect_hdrWrb_none hnone]

/-! ## The writers of header_size (R77) -/

theorem fieldAtOffset_eq_hsz_iff {a : Nat} : fieldAtOffset a = some .hsz ↔ 8 ≤ a ∧ a ≤ 11 := by
  by_cases h : a < 16
  · have fields : ∀ a < 16, fieldAtOffset a = some .hsz ↔ 8 ≤ a ∧ a ≤ 11 := by decide
    exact fields a h
  · rw [fieldAtOffset_padding (Nat.not_lt.mp h)]
    simp only [reduceCtorEq, false_iff]
    omega

theorem effect_hdrWrb_getField_ne {off : Offset} {k : Field}
    (h : fieldAtOffset (effectiveOffset off) ≠ some k) (b : Byte) (r : Registers) :
    (effect (.hdrWrb off b) r).getField k = r.getField k := by
  cases hfield : fieldAtOffset (effectiveOffset off) with
  | none => rw [effect_hdrWrb_none hfield]
  | some k' =>
    have hne : k ≠ k' := fun hk => h (hfield.trans (congrArg some hk.symm))
    rw [effect_hdrWrb_some hfield, regs_setField_getField_ne r _ hne]

theorem effect_hhsz_cases (i : Instr) (r : Registers) :
    (effect i r).hhsz = r.hhsz ∨ (i = .hdrNew ∧ (effect i r).hhsz = Config.freshHeaderSize) ∨
      ∃ off b, i = .hdrWrb off b ∧ 8 ≤ off.toNat ∧ off.toNat ≤ 11 := by
  cases i with
  | hdrNew => exact .inr (.inl ⟨rfl, rfl⟩)
  | hdrWrb off b =>
    by_cases hfield : fieldAtOffset (effectiveOffset off) = some .hsz
    · exact .inr (.inr ⟨off, b, rfl, fieldAtOffset_eq_hsz_iff.mp hfield⟩)
    · exact .inl (effect_hdrWrb_getField_ne hfield b r)
  | _ => exact .inl rfl

theorem exec_hhsz_cases {i : Instr} {s t : State} (h : exec i s = .next t) :
    t.regs.hhsz = s.regs.hhsz ∨ (i = .hdrNew ∧ t.regs.hhsz = Config.freshHeaderSize) ∨
      ∃ off b, i = .hdrWrb off b ∧ 8 ≤ off.toNat ∧ off.toNat ≤ 11 := by
  rw [exec_next_inv h]
  exact effect_hhsz_cases i s.regs

theorem writer_of_hhsz_ne {i : Instr} {s t : State} (h : exec i s = .next t)
    (hne : t.regs.hhsz ≠ s.regs.hhsz) :
    i = .hdrNew ∨ ∃ off b, i = .hdrWrb off b ∧ 8 ≤ off.toNat ∧ off.toNat ≤ 11 := by
  obtain heq | ⟨hnew, -⟩ | hwrite := exec_hhsz_cases h
  · exact absurd heq hne
  · exact .inl hnew
  · exact .inr hwrite

/-- The four bytes of a word, each with the lane it stands in. -/
def wordLanes (v : Word) : List (Nat × Byte) :=
  [(0, v.extractLsb' 0 8), (1, v.extractLsb' 8 8), (2, v.extractLsb' 16 8), (3, v.extractLsb' 24 8)]

theorem writeLanes_wordLanes (v w : Word) :
    (∀ p ∈ wordLanes v, p.1 < 4) ∧ writeLanes (wordLanes v) w = v := by
  obtain ⟨hlt, hword⟩ := writeLanes_perm (List.Perm.refl (wordLanes v)) w
  exact ⟨hlt, hword.trans (le32dec_le32 v)⟩

/-- Byte writes to the four lanes of a field leave any word there, and change nothing else. -/
theorem issueAll_wordLanes (k : BitVec 2) (s : State) (v : Word) :
    ∃ rs t, issueAll (laneWrites k (wordLanes v)) s = some (rs, t) ∧
      t.regs = s.regs.setField (fieldOfNumber k) v := by
  obtain ⟨hlt, hword⟩ := writeLanes_wordLanes v (s.regs.getField (fieldOfNumber k))
  obtain ⟨rs, t, hissue, hregs⟩ := issueAll_laneWrites k hlt s
  rw [hword] at hregs
  exact ⟨rs, t, hissue, hregs⟩

/-! ## Nothing acts on the value of header_size (R77) -/

theorem effect_setField_hsz (i : Instr) (r : Registers) (v : Word) :
    effect i (r.setField .hsz v) = (effect i r).setField .hsz (effect i (r.setField .hsz v)).hhsz := by
  cases i with
  | hdrWrb off b =>
    cases hfield : fieldAtOffset (effectiveOffset off) with
    | none => simp only [effect_hdrWrb_none hfield]; rfl
    | some k => simp only [effect_hdrWrb_some hfield]; cases k <;> rfl
  | _ => rfl

/-- The status of an answer depends on the command alone. -/
theorem answer_status_congr (i : Instr) (r r' : Registers) : (answer i r).status = (answer i r').status := by
  cases i with
  | hdrRdb off => simp only [answer]; split <;> rfl
  | _ => rfl

theorem answer_setField_hsz {i : Instr} (hword : i ≠ .hdrRdf .hsz)
    (hbyte : ∀ off, i = .hdrRdb off → off.toNat < 8 ∨ 11 < off.toNat) (r : Registers) (v : Word) :
    answer i (r.setField .hsz v) = answer i r := by
  cases i with
  | hdrRdf k =>
    have hne : k ≠ .hsz := fun hk => hword (congrArg Instr.hdrRdf hk)
    exact congrArg okWord (regs_setField_getField_ne r v hne)
  | hdrRdb off =>
    have hne : fieldAtOffset (effectiveOffset off) ≠ some .hsz := by
      have hoff := hbyte off rfl
      rw [ne_eq, fieldAtOffset_eq_hsz_iff, effectiveOffset]
      omega
    simp only [answer, image_setField_ne r .hsz v hne]
  | _ => rfl

/-- Settles O21: the writers by `exec_hhsz_cases`, any value by `issueAll_wordLanes` at field 2, and
what a command does with another value of `HHSZ` by the lemmas about `effect` and `answer` at `setField .hsz`. -/
theorem headerSizeWritersOnly : Obligations.HeaderSizeWritersOnly := by
  refine ⟨fun _ _ _ h => exec_hhsz_cases h, issueAll_wordLanes 2#2, fun i s v => ?_⟩
  exact ⟨_, _, _, _, exec_eq i s, exec_eq i _, effect_setField_hsz i s.regs v, rfl, rfl,
    answer_status_congr i _ _, fun hword hbyte => answer_setField_hsz hword hbyte s.regs v⟩

/-! ## The image as the serialised header (R78) -/

/-- Bytes 0 to 15 are the little-endian bytes of the four fields (spec/20_memory.md R29, R32). -/
theorem map_image_fields (r : Registers) :
    (List.range Config.fieldsBytes).map (image r) =
      le32 r.hsig ++ le32 r.hcsz ++ le32 r.hhsz ++ le32 r.hchk := rfl

theorem map_image_padding (r : Registers) (n : Nat) :
    ((List.range n).map (Config.fieldsBytes + ·)).map (image r) = zeros n := by
  have hzero : ∀ j, image r (Config.fieldsBytes + j) = 0x00#8 := fun j =>
    image_padding r (Nat.le_add_right 16 j)
  rw [List.map_map, zeros, List.eq_replicate_iff]
  exact ⟨by simp, List.forall_mem_map.mpr fun j _ => hzero j⟩

/-- Settles O35: the 512 offsets are the 16 of the fields and then the 496 of the padding. -/
theorem imageIsSerialisedHeader : Obligations.ImageIsSerialisedHeader := by
  intro r
  have hsize : 512 = Config.fieldsBytes + Config.padBytes := rfl
  rw [hsize, List.range_add, List.map_append, map_image_fields, map_image_padding, pack]

/-! ## The commands (R70 to R76) -/

/-- After `HDR.NEW` the image is the one after reset. -/
theorem memRead_of_hdrNew {s t : State} (h : exec .hdrNew s = .next t) {a : Nat} (ha : a < 512) :
    memRead a t = some (if a = 9 then 0x02#8 else 0x00#8) := by
  rw [exec_next_inv h, ← memRead_reset ha]
  exact memRead_congr (effect_hdrNew_getField s.regs) a

/-- Settles O10: the effect by `exec_eq`, the operand words by format N, the image by `memRead_of_hdrNew`. -/
theorem hdrNewMakesFreshHeader : Obligations.HdrNewMakesFreshHeader := fun s =>
  ⟨exec_eq .hdrNew s,
    fun arg => (step_present_assigned .hdrNew arg s).trans (if_congr and_reservedBits_n_eq_zero_iff rfl rfl),
    fun _ h _ ha => memRead_of_hdrNew h ha, fun _ _ => writer_of_hhsz_ne⟩

/-- Settles O11: the effects by `exec_eq`; format W has no reserved bit, so each word decodes. -/
theorem hdrWordWritesStoreOperand : Obligations.HdrWordWritesStoreOperand := fun s w =>
  ⟨⟨exec_eq (.hdrSig w) s, step_present_of_instr (decode_encode_of_wf (i := .hdrSig w) rfl) s⟩,
    ⟨exec_eq (.hdrCsz w) s, step_present_of_instr (decode_encode_of_wf (i := .hdrCsz w) rfl) s⟩,
    ⟨exec_eq (.hdrChk w) s, step_present_of_instr (decode_encode_of_wf (i := .hdrChk w) rfl) s⟩⟩

/-- Settles O12: the answers by `exec_eq`; the operand words 0 to 3 encode the four reads, and every other one
has a reserved bit of format F. -/
theorem hdrRdfAnswersField : Obligations.HdrRdfAnswersField := by
  intro s
  refine ⟨exec_eq (.hdrRdf .sig) s, exec_eq (.hdrRdf .csz) s, exec_eq (.hdrRdf .hsz) s,
    exec_eq (.hdrRdf .chk) s, fun arg => ?_⟩
  have hread : ∀ k, step (s.present (encode (.hdrRdf k))) = exec (.hdrRdf k) s := fun k =>
    step_present_of_instr (decode_encode_of_wf (i := .hdrRdf k) rfl) s
  split_ifs with h0 h1 h2 h3
  · rw [h0]; exact hread .sig
  · rw [h1]; exact hread .csz
  · rw [h2]; exact hread .hsz
  · rw [h3]; exact hread .chk
  · have hbig : 2 ^ operandWidth .f ≤ arg.toNat := by
      rw [operandWidth]
      bv_omega
    exact (step_present_assigned .hdrRdf arg s).trans (if_neg (and_reservedBits_ne_zero_iff.mpr hbig))

/-- Settles O13: an answer in the image by `exec_hdrRdb_of_lt`, beyond it by `exec_of_not_wf`, the operand
words by format A. -/
theorem hdrRdbAnswersImageByte : Obligations.HdrRdbAnswersImageByte := fun s =>
  ⟨fun off => ⟨fun h => exec_hdrRdb_of_lt h s,
      fun h => exec_of_not_wf (i := .hdrRdb off) (offsetLegal_eq_false.mpr h) s⟩,
    fun arg => (step_present_assigned .hdrRdb arg s).trans (if_congr and_reservedBits_eq_zero_iff rfl rfl)⟩

/-- Settles O14: the three ranges of offsets by `exec_hdrWrb_field`, `exec_hdrWrb_padding` and
`exec_of_not_wf`, the operand words by format AB, the writers of `HHSZ` by `writer_of_hhsz_ne`. -/
theorem hdrWrbReplacesByteLane : Obligations.HdrWrbReplacesByteLane := by
  refine fun s => ⟨fun off b k hk => ⟨?field, ?padding, ?beyond⟩, ?operandWords, fun _ _ => writer_of_hhsz_ne⟩
  case field => exact fun h => exec_hdrWrb_field (Nat.lt_succ_of_le h) b s hk
  case padding => exact fun h16 h511 => exec_hdrWrb_padding h16 (Nat.lt_succ_of_le h511) b s
  case beyond => exact fun h => exec_of_not_wf (i := .hdrWrb off b) (offsetLegal_eq_false.mpr h) s
  case operandWords =>
    exact fun arg =>
      (step_present_assigned .hdrWrb arg s).trans (if_congr and_reservedBits_eq_zero_iff rfl rfl)

end Sys2Proof.Proofs.HdrUnit
end

section
/-! PROOFS. The XOR unit (spec/42_cipher.md): what a step on each of its two opcodes does with every operand word
(R82, R83), and that the same key twice gives the byte back (R84). -/

namespace Sys2Proof.Proofs.XorUnit

open Sys2Proof.Machine Sys2Proof.Laws
open Sys2Proof.Proofs.HeaderImage Sys2Proof.Proofs.CrcUnit Sys2Proof.Proofs.HdrUnit

/-! ## The writer of the key (R82) -/

theorem effect_key_of_ne_keySet {i : Instr} (h : ∀ b, i ≠ .keySet b) (r : Registers) :
    (effect i r).key = r.key := by
  cases i with
  | keySet b => exact absurd rfl (h b)
  | hdrWrb off b =>
    cases hfield : fieldAtOffset (effectiveOffset off) with
    | none => rw [effect_hdrWrb_none hfield]
    | some k => rw [effect_hdrWrb_some hfield, regs_setField_key]
  | _ => rfl

theorem exec_key_of_ne_keySet {i : Instr} {s t : State} (hexec : exec i s = .next t)
    (h : ∀ b, i ≠ .keySet b) : t.regs.key = s.regs.key := by
  rw [exec_next_inv hexec]
  exact effect_key_of_ne_keySet h s.regs

/-! ## The commands (R82, R83) -/

/-- Settles O15: the effect by `exec_eq`, the operand words by format B, the other commands by
`exec_key_of_ne_keySet`. -/
theorem keySetStoresKey : Obligations.KeySetStoresKey := fun s =>
  ⟨fun b => exec_eq (.keySet b) s,
    fun _ => (step_present_commandWord (o := .keySet) rfl s).trans
      (if_congr and_reservedBits_b_eq_zero_iff rfl rfl),
    fun _ _ => exec_key_of_ne_keySet⟩

/-- Settles O16: the answer and the unchanged registers by `exec_eq`, the operand words by format B. -/
theorem xorBAnswersByteXorKey : Obligations.XorBAnswersByteXorKey := fun s =>
  ⟨fun b => exec_eq (.xorB b) s, fun _ =>
    (step_present_commandWord (o := .xorB) rfl s).trans (if_congr and_reservedBits_b_eq_zero_iff rfl rfl)⟩

/-! ## The same key twice (R84) -/

theorem xor_key_involutive (key : Byte) : Function.Involutive fun b : Byte => b ^^^ key := fun b =>
  calc (b ^^^ key) ^^^ key
    _ = b ^^^ (key ^^^ key) := BitVec.xor_assoc ..
    _ = b := by rw [BitVec.xor_self, BitVec.xor_zero]

theorem xorTransform_involutive (key : Byte) : Function.Involutive fun data => xorTransform data key :=
  (xor_key_involutive key).list_map

theorem issue_xorB (b : Byte) (s : State) :
    issue (.xorB b) s = some (okByte (b ^^^ s.regs.key),
      { s with responses := s.responses ++ [okByte (b ^^^ s.regs.key)] }) :=
  issue_of_decode (decode_encode_of_wf (i := .xorB b) rfl) s

/-- Settles O42: the first `XOR.B` leaves the key, so the second undoes it (`xor_key_involutive`); a sequence
is mapped byte by byte. -/
theorem xorTwiceIsIdentity : Obligations.XorTwiceIsIdentity := by
  refine ⟨fun s b => ⟨_, _, _, _, issue_xorB b s, issue_xorB _ _, ?_, rfl⟩,
    fun data key => xorTransform_involutive key data⟩
  rw [responseByte_okByte, responseByte_okByte]
  exact xor_key_involutive s.regs.key b

end Sys2Proof.Proofs.XorUnit
end

section
/-! PROOFS. The codec's functions on byte sequences (spec/43_codec.md R96 to R104; spec/60_exceptions.md R115,
R116): the container that craft makes, each result of uncraft, and the round trip. -/

namespace Sys2Proof.Proofs.CodecFunctions

open Sys2Proof.Machine Sys2Proof.Laws
open Sys2Proof.Proofs.HeaderImage Sys2Proof.Proofs.XorUnit

/-! ## The container that craft makes (R96, R97) -/

/-- The bytes craft returns for a payload of 1 to `MAXLEN` bytes (R97). -/
def craftedContainer (p : List Byte) (sig : Word) (key : Byte) : List Byte :=
  pack sig (BitVec.ofNat 32 p.length) Config.freshHeaderSize (crc32 p) ++ xorTransform p key

theorem craft_eq_some_ok_iff {p : List Byte} {sig : Word} {key : Byte} {c : List Byte} :
    craft p sig key = some (.ok c) ↔
      1 ≤ p.length ∧ p.length ≤ Config.maxLen ∧ c = craftedContainer p sig key := by
  unfold craft
  split_ifs with hempty hlong
  · simp [hempty]
  · simp [Nat.not_le.mpr hlong]
  · simp [Nat.one_le_iff_ne_zero.mpr hempty, Nat.not_lt.mp hlong, craftedContainer, eq_comm]

theorem craftedContainer_length (p : List Byte) (sig : Word) (key : Byte) :
    (craftedContainer p sig key).length = 512 + p.length := by
  rw [craftedContainer, List.length_append, pack_length, xorTransform_length]

theorem take_craftedContainer (p : List Byte) (sig : Word) (key : Byte) :
    (craftedContainer p sig key).take 512 =
      pack sig (BitVec.ofNat 32 p.length) Config.freshHeaderSize (crc32 p) :=
  List.take_left' (pack_length ..)

theorem drop_craftedContainer (p : List Byte) (sig : Word) (key : Byte) :
    (craftedContainer p sig key).drop 512 = xorTransform p key :=
  List.drop_left' (pack_length ..)

/-- Bytes 0 to 3 store the signature. -/
theorem signature_craftedContainer (p : List Byte) (sig : Word) (key : Byte) :
    le32dec (slice (craftedContainer p sig key) 0 4) = sig := le32dec_le32 sig

/-- Bytes 4 to 7 store the payload's length, which fits a word up to `MAXLEN`. -/
theorem contentSize_craftedContainer {p : List Byte} (h : p.length ≤ Config.maxLen) (sig : Word) (key : Byte) :
    (le32dec (slice (craftedContainer p sig key) 4 8)).toNat = p.length := by
  have hword : le32dec (slice (craftedContainer p sig key) 4 8) = BitVec.ofNat 32 p.length := le32dec_le32 _
  rw [hword, BitVec.toNat_ofNat]
  exact Nat.mod_eq_of_lt (Nat.lt_succ_of_le h)

/-- Settles O51: each clause is the lemma about that part of `craftedContainer`. -/
theorem containerLayout : Obligations.ContainerLayout := by
  intro p sig key c hcraft
  obtain ⟨-, hmax, rfl⟩ := craft_eq_some_ok_iff.mp hcraft
  have hlength := craftedContainer_length p sig key
  have hsize := hlength.trans (congrArg (512 + ·) (contentSize_craftedContainer hmax sig key).symm)
  exact ⟨hlength, hsize, take_craftedContainer p sig key, drop_craftedContainer p sig key⟩

/-! ## Two keys (R103) -/

theorem getElem?_xorTransform_ne {key1 key2 : Byte} (hkey : key1 ≠ key2) {p : List Byte} {i : Nat}
    (hi : i < p.length) : (xorTransform p key1)[i]? ≠ (xorTransform p key2)[i]? := by
  simpa [xorTransform, hi, BitVec.xor_right_inj] using hkey

/-- Settles O52: neither the length nor the header of `craftedContainer` names the key, and the byte at
offset j is byte j - 512 of the transformed payload. -/
theorem headerIndependentOfKey : Obligations.HeaderIndependentOfKey := by
  intro p sig key1 key2 c1 c2 hcraft1 hcraft2
  obtain ⟨-, -, rfl⟩ := craft_eq_some_ok_iff.mp hcraft1
  obtain ⟨-, -, rfl⟩ := craft_eq_some_ok_iff.mp hcraft2
  refine ⟨?length, ?header, ?payload⟩
  case length => rw [craftedContainer_length, craftedContainer_length]
  case header => rw [take_craftedContainer, take_craftedContainer]
  case payload =>
    intro hkey j hj hlt
    obtain ⟨i, rfl⟩ := Nat.exists_eq_add_of_le hj
    have hi : i < p.length := by
      rw [craftedContainer_length] at hlt
      omega
    rw [← List.getElem?_drop, ← List.getElem?_drop, drop_craftedContainer, drop_craftedContainer]
    exact getElem?_xorTransform_ne hkey hi

/-! ## The results of uncraft (R99, R104, R115, R116) -/

theorem le32_le32dec {l : List Byte} (h : l.length = 4) : le32 (le32dec l) = l := by
  match l, h with
  | [b0, b1, b2, b3], _ =>
    exact List.map_congr_left (l := [(0, b0), (1, b1), (2, b2), (3, b3)])
      (f := fun p => byteLane (le32dec [b0, b1, b2, b3]) p.1) (g := Prod.snd) fun _ hp => byteLane_le32dec hp

/-- Comparing the stored word with the signature is comparing the four bytes with the signature's. -/
theorem le32dec_eq_iff {l : List Byte} (h : l.length = 4) {v : Word} : le32dec l = v ↔ l = le32 v := by
  constructor
  · rintro rfl
    exact (le32_le32dec h).symm
  · rintro rfl
    exact le32dec_le32 v

theorem slice_length {l : List Byte} {i j : Nat} (h : j ≤ l.length) : (slice l i j).length = j - i := by
  rw [slice, List.length_take, List.length_drop]
  omega

/-- Everything uncraft can return, the conditions excluding one another (R99). -/
theorem uncraft_cases (c : List Byte) (sig : Word) (key : Byte) :
    (c.length = 0 ∧ uncraft c sig key = .err .readFailure) ∨
    (1 ≤ c.length ∧ c.length ≤ 512 ∧ uncraft c sig key = .err .tooSmall) ∨
    (512 < c.length ∧ le32dec (slice c 0 4) ≠ sig ∧ uncraft c sig key = .err .signatureMismatch) ∨
    (512 < c.length ∧ le32dec (slice c 0 4) = sig ∧
      uncraft c sig key = .ok (xorTransform (c.drop 512) key)) := by
  unfold uncraft
  split_ifs with hempty hsmall hsig
  · exact .inl ⟨hempty, rfl⟩
  · exact .inr (.inl ⟨Nat.one_le_iff_ne_zero.mpr hempty, hsmall, rfl⟩)
  · exact .inr (.inr (.inl ⟨Nat.not_le.mp hsmall, hsig, rfl⟩))
  · exact .inr (.inr (.inr ⟨Nat.not_le.mp hsmall, not_not.mp hsig, rfl⟩))

theorem uncraft_of_signature_ne {c : List Byte} {sig : Word} (hlen : 512 < c.length)
    (hsig : le32dec (slice c 0 4) ≠ sig) (key : Byte) : uncraft c sig key = .err .signatureMismatch := by
  have hne : c.length ≠ 0 := by omega
  have hlong : ¬ c.length ≤ Config.headerSize := Nat.not_le.mpr hlen
  rw [uncraft, if_neg hne, if_neg hlong, if_pos hsig]

theorem uncraft_of_signature_eq {c : List Byte} {sig : Word} (hlen : 512 < c.length)
    (hsig : le32dec (slice c 0 4) = sig) (key : Byte) :
    uncraft c sig key = .ok (xorTransform (c.drop 512) key) := by
  have hne : c.length ≠ 0 := by omega
  have hlong : ¬ c.length ≤ Config.headerSize := Nat.not_le.mpr hlen
  rw [uncraft, if_neg hne, if_neg hlong, if_neg (not_not.mpr hsig), Config.headerSize]

/-- Settles O54: in each case of `uncraft_cases` one result is returned, and the conditions of the others
fail. -/
theorem uncraftErrorsExactly : Obligations.UncraftErrorsExactly := by
  intro c sig key
  have hbytes : 512 < c.length → (le32dec (slice c 0 4) = sig ↔ slice c 0 4 = le32 sig) := fun h =>
    le32dec_eq_iff (slice_length (by omega))
  obtain ⟨hlen, hres⟩ | ⟨hpos, hlen, hres⟩ | ⟨hlen, hsig, hres⟩ | ⟨hlen, hsig, hres⟩ :=
    uncraft_cases c sig key
  · simp [hres, hlen]
  · have hne : c.length ≠ 0 := by omega
    simp [hres, hne, hpos, hlen, Nat.not_lt.mpr hlen]
  · have hne : c.length ≠ 0 := by omega
    simp [hres, hne, hlen, Nat.not_le.mpr hlen, hsig, ← hbytes hlen]
  · have hne : c.length ≠ 0 := by omega
    simp [hres, hne, hlen, Nat.not_le.mpr hlen, hsig, ← hbytes hlen, eq_comm]

/-- Settles O55: uncraft is a function of the length, the first four bytes and the bytes from 512 on. -/
theorem uncraftIgnoresRestOfHeader : Obligations.UncraftIgnoresRestOfHeader := by
  intro c c' sig key hlength hsig hpayload
  have hdrop : c.drop Config.headerSize = c'.drop Config.headerSize := hpayload
  rw [uncraft, uncraft, hlength, hsig, hdrop]

/-! ## The round trip (R102) -/

theorem uncraft_craftedContainer {p : List Byte} (h : 1 ≤ p.length) (sig : Word) (key : Byte) :
    uncraft (craftedContainer p sig key) sig key = .ok p := by
  have hlen : 512 < (craftedContainer p sig key).length := by
    rw [craftedContainer_length]
    omega
  rw [uncraft_of_signature_eq hlen (signature_craftedContainer p sig key), drop_craftedContainer]
  exact congrArg CodecResult.ok (xorTransform_involutive key p)

/-- Settles O49: craft gives `craftedContainer`, which uncraft takes apart. -/
theorem craftUncraftRoundTrip : Obligations.CraftUncraftRoundTrip := fun _ sig key hpos hmax =>
  ⟨_, craft_eq_some_ok_iff.mpr ⟨hpos, hmax, rfl⟩, uncraft_craftedContainer hpos sig key⟩

end Sys2Proof.Proofs.CodecFunctions
end

section
/-! PROOFS. The command sequences of the composite operations (spec/43_codec.md R87 to R101): each is a list of
legal commands, so its result and the registers it leaves come from the answers and the effects of that list. -/

namespace Sys2Proof.Proofs.CodecExpansions

open Sys2Proof.Machine Sys2Proof.Laws
open Sys2Proof.Proofs.HeaderImage Sys2Proof.Proofs.HdrUnit Sys2Proof.Proofs.CodecFunctions

/-! ## Issuing legal commands -/

/-- The state after commands that all decode: their effects, and their answers added (R87). -/
def stateAfter (is : List Instr) (s : State) : State :=
  { s with regs := effects is s.regs, responses := s.responses ++ answers is s.regs }

theorem effects_append (is js : List Instr) (r : Registers) :
    effects (is ++ js) r = effects js (effects is r) := List.foldl_append

theorem answers_append (is js : List Instr) (r : Registers) :
    answers (is ++ js) r = answers is r ++ answers js (effects is r) := by
  induction is generalizing r with
  | nil => rfl
  | cons i is ih => exact congrArg (answer i r :: ·) (ih (effect i r))

@[simp] theorem stateAfter_regs (is : List Instr) (s : State) : (stateAfter is s).regs = effects is s.regs := rfl

theorem stateAfter_stateAfter (is js : List Instr) (s : State) :
    stateAfter js (stateAfter is s) = stateAfter (is ++ js) s := by
  simp only [stateAfter, effects_append, answers_append, List.append_assoc]

theorem issue_of_wf {i : Instr} (h : i.wf = true) (s : State) :
    issue i s = some (answer i s.regs, stateAfter [i] s) := issue_of_decode (decode_encode_of_wf h) s

theorem issueAll_of_wf {is : List Instr} (h : ∀ i ∈ is, i.wf = true) (s : State) :
    issueAll is s = some (answers is s.regs, stateAfter is s) :=
  issueAll_of_decode (fun i hi => decode_encode_of_wf (h i hi)) s

/-- A composite operation that issues n legal commands, as its obligation states it: one response for each
command, all `OK` (R87), and the registers that the commands leave. -/
theorem expansion_of_legal_commands {α : Type} {run : Option (α × State)} {v : α} {is : List Instr} {s : State}
    {r : Registers} {n : Nat} (hrun : run = some (v, stateAfter is s)) (heffects : effects is s.regs = r)
    (hcount : is.length = n) (hwf : ∀ i ∈ is, i.wf = true) :
    ∃ rs, run = some (v, { s with regs := r, responses := s.responses ++ rs }) ∧
      rs.length = n ∧ allOk rs := by
  refine ⟨answers is s.regs, ?_, (answers_length is s.regs).trans hcount, allOk_answers hwf s.regs⟩
  rw [hrun, stateAfter, heffects]

/-! ## CRC32 (R89) -/

/-- The commands of `CRC32`. -/
def crc32Commands (data : List Byte) : List Instr := .crcInit :: (data.map .crcUpd ++ [.crcFin])

theorem wf_crcUpds (data : List Byte) : ∀ i ∈ data.map Instr.crcUpd, i.wf = true :=
  List.forall_mem_map.mpr fun _ _ => rfl

theorem wf_crc32Commands (data : List Byte) : ∀ i ∈ crc32Commands data, i.wf = true :=
  List.forall_mem_cons.mpr
    ⟨rfl, List.forall_mem_append.mpr ⟨wf_crcUpds data, List.forall_mem_singleton.mpr rfl⟩⟩

theorem effects_crcUpds (data : List Byte) (r : Registers) :
    effects (data.map .crcUpd) r = { r with crc := crcFold data r.crc } := by
  induction data generalizing r with
  | nil => rfl
  | cons b data ih => exact ih _

theorem effects_crc32Commands (data : List Byte) (r : Registers) :
    effects (crc32Commands data) r = { r with crc := crcFold data Config.crcInit } := by
  simp only [crc32Commands, effects_append, effects_crcUpds, effects_cons, effects_nil, effect]

theorem runCrc32_eq (data : List Byte) (s : State) :
    runCrc32 data s = some (crc32 data, stateAfter (crc32Commands data) s) := by
  simp only [runCrc32, issue_of_wf (i := .crcInit) rfl, issue_of_wf (i := .crcFin) rfl,
    issueAll_of_wf (wf_crcUpds data), Option.bind_eq_bind, Option.bind_some, stateAfter_stateAfter,
    stateAfter_regs, effects_crcUpds]
  rfl

/-- Settles O43: `CRC.INIT` discards the register of the start, so the bytes fold from `CRC_INIT`. -/
theorem crc32ExpansionComputesCrc32 : Obligations.Crc32ExpansionComputesCrc32 := fun data s =>
  expansion_of_legal_commands (runCrc32_eq data s) (effects_crc32Commands data s.regs)
    (by simp [crc32Commands]) (wf_crc32Commands data)

/-! ## XORT (R91) -/

/-- The commands of `XORT`. -/
def xortCommands (data : List Byte) (key : Byte) : List Instr := .keySet key :: data.map .xorB

theorem wf_xorBs (data : List Byte) : ∀ i ∈ data.map Instr.xorB, i.wf = true :=
  List.forall_mem_map.mpr fun _ _ => rfl

theorem wf_xortCommands (data : List Byte) (key : Byte) : ∀ i ∈ xortCommands data key, i.wf = true :=
  List.forall_mem_cons.mpr ⟨rfl, wf_xorBs data⟩

/-- `XOR.B` writes nothing, so every byte meets the key of the start. -/
theorem xorBs_read_only (data : List Byte) (r : Registers) :
    effects (data.map .xorB) r = r ∧
      answers (data.map .xorB) r = (data.map Instr.xorB).map fun i => answer i r :=
  answers_of_effect_eq (List.forall_mem_map.mpr fun _ _ => rfl)

theorem effects_xortCommands (data : List Byte) (key : Byte) (r : Registers) :
    effects (xortCommands data key) r = { r with key := key } := (xorBs_read_only data _).1

theorem responseBytes_xorBs (data : List Byte) (r : Registers) :
    (answers (data.map .xorB) r).map responseByte = xorTransform data r.key := by
  rw [(xorBs_read_only data r).2, List.map_map, List.map_map]
  exact List.map_congr_left fun _ _ => responseByte_okByte _

theorem runXort_eq (data : List Byte) (key : Byte) (s : State) :
    runXort data key s = some (xorTransform data key, stateAfter (xortCommands data key) s) := by
  simp only [runXort, issue_of_wf (i := .keySet key) rfl, issueAll_of_wf (wf_xorBs data),
    Option.bind_eq_bind, Option.bind_some, stateAfter_stateAfter, responseBytes_xorBs]
  rfl

/-- Settles O44: `KEY.SET` discards the key of the start, and the `XOR.B` after it answer under the new one. -/
theorem xortExpansionComputesXorTransform : Obligations.XortExpansionComputesXorTransform := fun data key s =>
  expansion_of_legal_commands (runXort_eq data key s) (effects_xortCommands data key s.regs)
    (by simp [xortCommands]) (wf_xortCommands data key)

/-! ## PACK (R93) -/

/-- The four commands that begin `PACK`: a fresh header with three of its fields written. -/
def fieldCommands (sig csz chk : Word) : List Instr := [.hdrNew, .hdrSig sig, .hdrCsz csz, .hdrChk chk]

/-- A read of every byte of the image. -/
def imageReads : List Instr := (offsetsBelow Config.headerSize).map .hdrRdb

theorem wf_fieldCommands (sig csz chk : Word) : ∀ i ∈ fieldCommands sig csz chk, i.wf = true := by
  simp [fieldCommands, Instr.wf]

theorem effects_fieldCommands (sig csz chk : Word) (r : Registers) :
    effects (fieldCommands sig csz chk) r =
      { r with hsig := sig, hcsz := csz, hhsz := Config.freshHeaderSize, hchk := chk } := rfl

theorem effectiveOffset_ofNat {a : Nat} (h : a < 512) : effectiveOffset (BitVec.ofNat 16 a) = a :=
  Nat.mod_eq_of_lt (by omega)

theorem offsetLegal_ofNat {a : Nat} (h : a < 512) : offsetLegal (BitVec.ofNat 16 a) = true :=
  offsetLegal_eq_true.mpr ((effectiveOffset_ofNat h).trans_lt h)

theorem offsetLegal_of_mem_offsetsBelow {off : Offset} {n : Nat} (hn : n ≤ 512) (h : off ∈ offsetsBelow n) :
    offsetLegal off = true := by
  obtain ⟨a, ha, rfl⟩ := List.mem_map.mp h
  exact offsetLegal_ofNat (lt_of_lt_of_le (List.mem_range.mp ha) hn)

theorem wf_imageReads : ∀ i ∈ imageReads, i.wf = true :=
  List.forall_mem_map.mpr fun _ h => offsetLegal_of_mem_offsetsBelow le_rfl h

theorem imageReads_length : imageReads.length = 512 := by simp [imageReads, offsetsBelow, Config.headerSize]

theorem imageReads_read_only (r : Registers) :
    effects imageReads r = r ∧ answers imageReads r = imageReads.map fun i => answer i r :=
  answers_of_effect_eq (List.forall_mem_map.mpr fun _ _ => rfl)

theorem responseByte_hdrRdb {a : Nat} (h : a < 512) (r : Registers) :
    responseByte (answer (.hdrRdb (BitVec.ofNat 16 a)) r) = image r a := by
  simp only [answer, offsetLegal_ofNat h, if_true, effectiveOffset_ofNat h, responseByte_okByte]

/-- Reading the whole image gives the serialised header (R78). -/
theorem responseBytes_imageReads (r : Registers) :
    (answers imageReads r).map responseByte = pack r.hsig r.hcsz r.hhsz r.hchk := by
  rw [(imageReads_read_only r).2, imageReads, offsetsBelow, List.map_map, List.map_map, List.map_map,
    ← imageIsSerialisedHeader r]
  exact List.map_congr_left fun a ha => responseByte_hdrRdb (List.mem_range.mp ha) r

/-- The commands of `PACK`. -/
def packCommands (sig csz chk : Word) : List Instr := fieldCommands sig csz chk ++ imageReads

theorem wf_packCommands (sig csz chk : Word) : ∀ i ∈ packCommands sig csz chk, i.wf = true :=
  List.forall_mem_append.mpr ⟨wf_fieldCommands sig csz chk, wf_imageReads⟩

theorem effects_packCommands (sig csz chk : Word) (r : Registers) :
    effects (packCommands sig csz chk) r =
      { r with hsig := sig, hcsz := csz, hhsz := Config.freshHeaderSize, hchk := chk } := by
  rw [packCommands, effects_append, (imageReads_read_only _).1, effects_fieldCommands]

theorem runPack_eq (sig csz chk : Word) (s : State) :
    runPack sig csz chk s =
      some (pack sig csz Config.freshHeaderSize chk, stateAfter (packCommands sig csz chk) s) :=
  calc runPack sig csz chk s
    _ = (issueAll (fieldCommands sig csz chk) s).bind fun p =>
          (issueAll imageReads p.2).bind fun q => some (q.1.map responseByte, q.2) := rfl
    _ = _ := by
      simp only [issueAll_of_wf (wf_fieldCommands sig csz chk), issueAll_of_wf wf_imageReads,
        Option.bind_some, stateAfter_stateAfter, responseBytes_imageReads, stateAfter_regs,
        effects_fieldCommands]
      rfl

theorem packCommands_length (sig csz chk : Word) : (packCommands sig csz chk).length = 516 := by
  rw [packCommands, List.length_append, imageReads_length]
  rfl

/-- Settles O45: the first four commands write every field, and the 512 reads are the image of those fields. -/
theorem packExpansionComputesPack : Obligations.PackExpansionComputesPack := fun sig csz chk s =>
  expansion_of_legal_commands (runPack_eq sig csz chk s) (effects_packCommands sig csz chk s.regs)
    (packCommands_length sig csz chk) (wf_packCommands sig csz chk)

/-! ## PARSE (R95) -/

/-- Writing four bytes to the four lanes of a field, the first byte lowest. -/
def fieldWrites (k : BitVec 2) (b0 b1 b2 b3 : Byte) : List Instr :=
  laneWrites k [(0, b0), (1, b1), (2, b2), (3, b3)]

theorem effects_fieldWrites (k : BitVec 2) (b0 b1 b2 b3 : Byte) (r : Registers) :
    effects (fieldWrites k b0 b1 b2 b3) r = r.setField (fieldOfNumber k) (le32dec [b0, b1, b2, b3]) := by
  obtain ⟨hlt, hword⟩ := writeLanes_perm (List.Perm.refl [(0, b0), (1, b1), (2, b2), (3, b3)])
    (r.getField (fieldOfNumber k))
  rw [fieldWrites, effects_laneWrites k hlt, hword]

theorem exists_four_cons {l : List Byte} (h : 4 ≤ l.length) :
    ∃ b0 b1 b2 b3 rest, l = b0 :: b1 :: b2 :: b3 :: rest ∧ rest.length = l.length - 4 := by
  match l, h with
  | b0 :: b1 :: b2 :: b3 :: rest, _ => exact ⟨b0, b1, b2, b3, rest, rfl, rfl⟩

/-- The four fields in the first sixteen bytes of a header. -/
def storedHeader (hdr : List Byte) : ParsedHeader where
  sig := le32dec (slice hdr 0 4)
  csz := le32dec (slice hdr 4 8)
  hsz := le32dec (slice hdr 8 12)
  chk := le32dec (slice hdr 12 16)

theorem parse_of_le {hdr : List Byte} (h : 16 ≤ hdr.length) : parse hdr = some (storedHeader hdr) :=
  if_neg (Nat.not_lt.mpr h)

/-- The registers with the four fields of a header. -/
def withHeader (r : Registers) (h : ParsedHeader) : Registers :=
  { r with hsig := h.sig, hcsz := h.csz, hhsz := h.hsz, hchk := h.chk }

theorem wf_headerWrites (hdr : List Byte) : ∀ i ∈ headerWrites hdr, i.wf = true :=
  List.forall_mem_map.mpr fun _ hp => offsetLegal_of_mem_offsetsBelow (by decide) (List.of_mem_zip hp).1

theorem headerWrites_length {hdr : List Byte} (h : 16 ≤ hdr.length) : (headerWrites hdr).length = 16 := by
  simp [headerWrites, offsetsBelow, Config.fieldsBytes, h]

/-- The sixteen byte writes go to the four lanes of each field in turn, so they leave the fields that parse
reads (R79). -/
theorem effects_headerWrites {hdr : List Byte} (h : 16 ≤ hdr.length) (r : Registers) :
    effects (headerWrites hdr) r = withHeader r (storedHeader hdr) := by
  obtain ⟨a0, a1, a2, a3, hdr1, rfl, h1⟩ := exists_four_cons (l := hdr) (by omega)
  obtain ⟨b0, b1, b2, b3, hdr2, rfl, h2⟩ := exists_four_cons (l := hdr1) (by omega)
  obtain ⟨c0, c1, c2, c3, hdr3, rfl, h3⟩ := exists_four_cons (l := hdr2) (by omega)
  obtain ⟨d0, d1, d2, d3, rest, rfl, -⟩ := exists_four_cons (l := hdr3) (by omega)
  calc effects (headerWrites _) r
    _ = effects (fieldWrites 0#2 a0 a1 a2 a3 ++ fieldWrites 1#2 b0 b1 b2 b3 ++
          fieldWrites 2#2 c0 c1 c2 c3 ++ fieldWrites 3#2 d0 d1 d2 d3) r := rfl
    _ = _ := by
      simp only [effects_append, effects_fieldWrites]
      rfl

/-- A read of every field as a word. -/
def fieldReads : List Instr := [.hdrRdf .sig, .hdrRdf .csz, .hdrRdf .hsz, .hdrRdf .chk]

/-- The commands of `PARSE`. -/
def parseCommands (hdr : List Byte) : List Instr := headerWrites hdr ++ fieldReads

theorem wf_parseCommands (hdr : List Byte) : ∀ i ∈ parseCommands hdr, i.wf = true :=
  List.forall_mem_append.mpr ⟨wf_headerWrites hdr, by simp [fieldReads, Instr.wf]⟩

theorem effects_parseCommands {hdr : List Byte} (h : 16 ≤ hdr.length) (r : Registers) :
    effects (parseCommands hdr) r = withHeader r (storedHeader hdr) := by
  rw [parseCommands, effects_append, effects_headerWrites h]
  rfl

theorem issue_hdrRdf (k : Field) (s : State) :
    issue (.hdrRdf k) s = some (okWord (s.regs.getField k), stateAfter [.hdrRdf k] s) :=
  issue_of_wf (i := .hdrRdf k) rfl s

theorem runParse_eq {hdr : List Byte} (h : 16 ≤ hdr.length) (s : State) :
    runParse hdr s = some (storedHeader hdr, stateAfter (parseCommands hdr) s) := by
  have hlong : ¬ hdr.length < Config.fieldsBytes := Nat.not_lt.mpr h
  rw [runParse, if_neg hlong]
  simp only [issueAll_of_wf (wf_headerWrites hdr), issue_hdrRdf, Option.bind_eq_bind, Option.bind_some,
    stateAfter_stateAfter, stateAfter_regs, effects_headerWrites h]
  rfl

theorem parseCommands_length {hdr : List Byte} (h : 16 ≤ hdr.length) : (parseCommands hdr).length = 20 := by
  rw [parseCommands, List.length_append, headerWrites_length h]
  rfl

/-- Settles O46: the sixteen writes leave the fields of `storedHeader`, which the four reads answer; a byte
write in the padding names no field. -/
theorem parseExpansionComputesParse : Obligations.ParseExpansionComputesParse := by
  refine ⟨fun hdr s h => ?fields, fun a b s h16 h511 => ?padding⟩
  case fields =>
    obtain ⟨rs, hexpansion⟩ := expansion_of_legal_commands (runParse_eq h s) (effects_parseCommands h s.regs)
      (parseCommands_length h) (wf_parseCommands hdr)
    exact ⟨storedHeader hdr, rs, parse_of_le h, hexpansion⟩
  case padding =>
    have ha : a < 512 := Nat.lt_succ_of_le h511
    have hnone : fieldAtOffset (effectiveOffset (BitVec.ofNat 16 a)) = none := by
      rw [effectiveOffset_ofNat ha]
      exact fieldAtOffset_padding h16
    have hissue := issue_of_wf (i := .hdrWrb (BitVec.ofNat 16 a) b) (offsetLegal_ofNat ha) s
    rw [answer_hdrWrb_of_lt (offsetLegal_eq_true.mp (offsetLegal_ofNat ha))] at hissue
    exact ⟨_, hissue, effect_hdrWrb_none hnone b s.regs⟩

/-! ## UNCRAFT (R101) -/

/-- The commands up to the signature check. -/
def signatureCommands (c : List Byte) : List Instr := headerWrites c ++ [.hdrRdf .sig]

theorem wf_signatureCommands (c : List Byte) : ∀ i ∈ signatureCommands c, i.wf = true :=
  List.forall_mem_append.mpr ⟨wf_headerWrites c, List.forall_mem_singleton.mpr rfl⟩

theorem signatureCommands_length {c : List Byte} (h : 16 ≤ c.length) : (signatureCommands c).length = 17 := by
  rw [signatureCommands, List.length_append, headerWrites_length h]
  rfl

theorem effects_signatureCommands {c : List Byte} (h : 16 ≤ c.length) (r : Registers) :
    effects (signatureCommands c) r = withHeader r (storedHeader c) := by
  rw [signatureCommands, effects_append, effects_headerWrites h]
  rfl

/-- The commands of an `UNCRAFT` whose signature matches. -/
def uncraftCommands (c : List Byte) (key : Byte) : List Instr :=
  signatureCommands c ++ xortCommands (c.drop Config.headerSize) key

theorem wf_uncraftCommands (c : List Byte) (key : Byte) : ∀ i ∈ uncraftCommands c key, i.wf = true :=
  List.forall_mem_append.mpr ⟨wf_signatureCommands c, wf_xortCommands _ key⟩

theorem effects_uncraftCommands {c : List Byte} (h : 16 ≤ c.length) (key : Byte) (r : Registers) :
    effects (uncraftCommands c key) r = { withHeader r (storedHeader c) with key := key } := by
  rw [uncraftCommands, effects_append, effects_signatureCommands h, effects_xortCommands]

theorem uncraftCommands_length {c : List Byte} (h : 512 < c.length) (key : Byte) :
    (uncraftCommands c key).length = c.length - 494 := by
  have hsignature : (signatureCommands c).length = 17 := signatureCommands_length (by omega)
  simp only [uncraftCommands, xortCommands, List.length_append, hsignature, List.length_cons, List.length_map,
    List.length_drop, Config.headerSize]
  omega

theorem runUncraft_of_le {c : List Byte} (h : c.length ≤ 512) (sig : Word) (key : Byte) (s : State) :
    runUncraft c sig key s = some (uncraft c sig key, s) := by
  have hshort : c.length ≤ Config.headerSize := h
  rw [runUncraft, uncraft, if_pos hshort, if_pos hshort]
  split_ifs <;> rfl

/-- A container of more than 512 bytes: the signature read back from the block decides. -/
theorem runUncraft_of_lt {c : List Byte} (h : 512 < c.length) (sig : Word) (key : Byte) (s : State) :
    runUncraft c sig key s =
      if le32dec (slice c 0 4) ≠ sig then some (.err .signatureMismatch, stateAfter (signatureCommands c) s)
      else some (.ok (xorTransform (c.drop 512) key), stateAfter (uncraftCommands c key) s) := by
  have hne : c.length ≠ 0 := by omega
  have hread : (effects (headerWrites c) s.regs).getField .sig = le32dec (slice c 0 4) := by
    rw [effects_headerWrites (by omega)]
    rfl
  have hlong : ¬ c.length ≤ Config.headerSize := Nat.not_le.mpr h
  rw [runUncraft, if_neg hne, if_neg hlong]
  simp only [issueAll_of_wf (wf_headerWrites c), issue_hdrRdf, runXort_eq, Option.bind_eq_bind, Option.bind_some,
    stateAfter_stateAfter, ← List.append_assoc, stateAfter_regs, hread]
  rfl

/-- Settles O48: a short container issues nothing (`runUncraft_of_le`); a longer one is decided by the signature
that the block reads back (`runUncraft_of_lt`), which is the one that uncraft compares. -/
theorem uncraftExpansionComputesUncraft : Obligations.UncraftExpansionComputesUncraft := by
  intro c sig key s
  by_cases hle : c.length ≤ 512
  case pos =>
    exact ⟨s, [], runUncraft_of_le hle sig key s, rfl, (List.append_nil _).symm, List.forall_mem_nil _, rfl,
      fun _ => rfl, fun h => absurd hle (Nat.not_le.mpr h)⟩
  have hlen : 512 < c.length := Nat.not_le.mp hle
  have h16 : 16 ≤ c.length := by omega
  have hrun := runUncraft_of_lt hlen sig key s
  by_cases hsig : le32dec (slice c 0 4) = sig
  case neg =>
    obtain ⟨rs, hresult, hcount, hok⟩ := expansion_of_legal_commands (hrun.trans (if_pos hsig))
      (effects_signatureCommands h16 s.regs) (signatureCommands_length h16) (wf_signatureCommands c)
    rw [uncraft_of_signature_ne hlen hsig]
    exact ⟨_, rs, hresult, rfl, rfl, hok, rfl, fun h => absurd h hle, fun _ =>
      ⟨parse_of_le h16, fun _ => ⟨hcount, rfl⟩, fun hne => absurd rfl hne⟩⟩
  case pos =>
    obtain ⟨rs, hresult, hcount, hok⟩ := expansion_of_legal_commands (hrun.trans (if_neg (not_not.mpr hsig)))
      (effects_uncraftCommands h16 key s.regs) (uncraftCommands_length hlen key) (wf_uncraftCommands c key)
    rw [uncraft_of_signature_eq hlen hsig]
    exact ⟨_, rs, hresult, rfl, rfl, hok, rfl, fun h => absurd h hle, fun _ =>
      ⟨parse_of_le h16, nofun, fun _ => ⟨hcount, rfl, hsig⟩⟩⟩

end Sys2Proof.Proofs.CodecExpansions
end

section
/-! PROOFS. Errors (spec/60_exceptions.md): what a command error changes and how the port answers it (R110,
R111), and when craft is an error or has no result (R114; spec/43_codec.md R106). -/

namespace Sys2Proof.Proofs.Errors

open Sys2Proof.Machine Sys2Proof.Laws
open Sys2Proof.Proofs.DecodeOutcomes

/-! ## The response word (spec/30_encoding.md R45, R46) -/

@[simp] theorem opField_responseWord (r : Response) : opField (responseWord r) = statusCode r.status := by
  rw [responseWord_eq_commandWord, opField_commandWord]

@[simp] theorem argField_responseWord (r : Response) : argField (responseWord r) = r.data := by
  rw [responseWord_eq_commandWord, argField_commandWord]

/-! ## Command errors (R110, R111) -/

/-- A bad command is taken, answered and otherwise without effect (R111). -/
theorem step_of_error {s : State} {cmd : CmdWord} {rest : List Input} {e : CommandError}
    (hnext : s.inputs = .command cmd :: rest) (hdecode : decode cmd = .error e) :
    step s = .next { s with inputs := rest, responses := s.responses ++ [errorResponse e] } := by
  have hpresent : s = State.present { s with inputs := rest } cmd := by rw [State.present, ← hnext]
  exact (congrArg step hpresent).trans (step_present_of_error hdecode _)

/-- Settles O23: `step_of_error`, and the fields of a response word for each of the four statuses. -/
theorem commandErrorChangesNothing : Obligations.CommandErrorChangesNothing := by
  refine ⟨fun _ _ _ _ => step_of_error, fun d st code hcode => ⟨?status, ?data⟩, rfl, rfl, rfl⟩
  case status =>
    have hstatus : statusCode st = code := by
      obtain ⟨rfl, rfl⟩ | ⟨rfl, rfl⟩ | ⟨rfl, rfl⟩ | ⟨rfl, rfl⟩ := hcode <;> rfl
    exact (opField_responseWord ⟨st, d⟩).trans hstatus
  case data => exact argField_responseWord ⟨st, d⟩

/-! ## craft (R114, R106) -/

theorem craft_eq_some_err_iff {p : List Byte} {sig : Word} {key : Byte} {e : CodecError} :
    craft p sig key = some (.err e) ↔ e = .emptyInput ∧ p.length = 0 := by
  unfold craft
  split_ifs with hempty hlong
  · simp [hempty, eq_comm]
  · simp [hempty]
  · simp [hempty]

theorem craft_eq_none_iff {p : List Byte} {sig : Word} {key : Byte} :
    craft p sig key = none ↔ Config.maxLen < p.length := by
  unfold craft
  split_ifs with hempty hlong
  · simp [hempty]
  · simp [hlong]
  · simp [hlong]

theorem runCraft_of_empty {p : List Byte} (h : p.length = 0) (sig : Word) (key : Byte) (s : State) :
    runCraft p sig key s = some (.err .emptyInput, s) := if_pos h

theorem runCraft_of_maxLen_lt {p : List Byte} (h : Config.maxLen < p.length) (sig : Word) (key : Byte)
    (s : State) : runCraft p sig key s = none := by
  have hne : p.length ≠ 0 := Nat.ne_zero_of_lt h
  rw [runCraft, if_neg hne, if_pos h]

/-- Settles O53: the conditions of each outcome of craft, and `CRAFT`, whose check of the length comes before
any command (spec/43_codec.md R98). -/
theorem craftErrorsExactly : Obligations.CraftErrorsExactly := fun _ sig key =>
  ⟨fun _ => craft_eq_some_err_iff, fun s hempty => runCraft_of_empty hempty sig key s, craft_eq_none_iff,
    fun s hlong => runCraft_of_maxLen_lt hlong sig key s⟩

end Sys2Proof.Proofs.Errors
end

section
/-! PROOFS. Reset and hazards (spec/70_reset_and_hazards.md): reset as three commands (R125), a message without
`CRC.INIT` of its own (R131), and the independence of the three units (R133). -/

namespace Sys2Proof.Proofs.ResetAndHazards

open Sys2Proof.Machine Sys2Proof.Laws
open Sys2Proof.Proofs.HeaderImage Sys2Proof.Proofs.HdrUnit Sys2Proof.Proofs.CodecExpansions

/-! ## Encoded commands, legal or not -/

/-- A step on an encoded command is the command's meaning, also for an offset out of range. -/
theorem step_present_encode (i : Instr) (s : State) : step (s.present (encode i)) = exec i s := by
  rw [encode, step_present_assigned, if_pos (argOfInstr_reserved i), instrOf_argOfInstr]

theorem issue_eq (i : Instr) (s : State) : issue i s = some (answer i s.regs, stateAfter [i] s) := by
  simp [issue, step_present_encode, exec_eq, stateAfter]

theorem issueAll_pair (i j : Instr) (s : State) :
    issueAll [i, j] s =
      some ([answer i s.regs, answer j (effect i s.regs)], stateAfter [j] (stateAfter [i] s)) := by
  rw [issueAll_cons_of_issue (issue_eq i s), issueAll_cons_of_issue (issue_eq j _)]
  rfl

/-- The host's inputs that present these commands. -/
def commandInputs (is : List Instr) : List Input := is.map fun i => .command (encode i)

/-- Commands that the host presents one after another are performed in as many steps. -/
theorem run_commandInputs (is : List Instr) (s : State) (rest : List Input) :
    Host.Core.run core is.length { s with inputs := commandInputs is ++ rest } =
      .next (stateAfter is { s with inputs := rest }) := by
  induction is generalizing s with
  | nil => simp [stateAfter, commandInputs]
  | cons i is ih =>
    have hstep : step { s with inputs := commandInputs (i :: is) ++ rest } =
        .next { stateAfter [i] s with inputs := commandInputs is ++ rest } :=
      (step_present_encode i { s with inputs := commandInputs is ++ rest }).trans (exec_eq i _)
    calc Host.Core.run core (is.length + 1) { s with inputs := commandInputs (i :: is) ++ rest }
      _ = Host.Core.run core is.length { stateAfter [i] s with inputs := commandInputs is ++ rest } :=
        run_succ_of_next hstep is.length
      _ = .next (stateAfter is { stateAfter [i] s with inputs := rest }) := ih (stateAfter [i] s)
      _ = .next (stateAfter (i :: is) { s with inputs := rest }) :=
        congrArg Host.Outcome.next (stateAfter_stateAfter [i] is { s with inputs := rest })

/-! ## Reset (R125) -/

/-- The commands that reset has the effect of. -/
def resetCommands : List Instr := [.crcInit, .keySet 0x00#8, .hdrNew]

/-- The three commands write all six registers, so nothing is left of the registers of the start. -/
theorem effects_resetCommands (r : Registers) : effects resetCommands r = Registers.reset := rfl

/-- Settles O27: the step on a reset by the definition of `applyReset`, the three commands by `run_commandInputs`
and `effects_resetCommands`. -/
theorem resetWritesAllRegisters : Obligations.ResetWritesAllRegisters := fun s rest =>
  ⟨rfl, _, _, rfl, run_commandInputs resetCommands s rest, effects_resetCommands s.regs, rfl⟩

/-! ## Two messages (R131) -/

/-- Settles O57: `CRC32` leaves the register after the bytes of a (`CRC.FIN` does not write it), and the bytes
of b continue from there (`crcFold_append`). -/
theorem checksumWithoutInitJoinsMessages : Obligations.ChecksumWithoutInitJoinsMessages := by
  intro a b s
  refine ⟨_, _, _, _, _, runCrc32_eq a s, issueAll_of_wf (wf_crcUpds b) _, issue_eq .crcFin _, ?_⟩
  rw [stateAfter_regs, stateAfter_regs, effects_crc32Commands, effects_crcUpds, crc32, crcFold_append]
  rfl

/-! ## Units (R133) -/

/-- The registers of one unit, the others at their reset values: two register files agree on a unit when
these are equal. -/
def unitRegisters (u : HwUnit) (r : Registers) : Registers :=
  match u with
  | .crc => { Registers.reset with crc := r.crc }
  | .hdr => { r with crc := Registers.reset.crc, key := Registers.reset.key }
  | .xor => { Registers.reset with key := r.key }

theorem unitRegisters_hdr_getField (r : Registers) (k : Field) :
    (unitRegisters .hdr r).getField k = r.getField k := by
  cases k <;> rfl

theorem eq_of_unitRegisters_eq {r r' : Registers} (h : ∀ u, unitRegisters u r = unitRegisters u r') :
    r = r' := by
  have hcrc : r.crc = r'.crc := (congrArg Registers.crc (h .crc) :)
  have hkey : r.key = r'.key := (congrArg Registers.key (h .xor) :)
  refine registers_ext hcrc hkey fun k => ?_
  rw [← unitRegisters_hdr_getField r, h, unitRegisters_hdr_getField]

theorem unitRegisters_hdr_setField (r : Registers) (k : Field) (v : Word) :
    unitRegisters .hdr (r.setField k v) = (unitRegisters .hdr r).setField k v := by
  cases k <;> rfl

theorem unitRegisters_setField_of_ne_hdr {u : HwUnit} (h : u ≠ .hdr) (r : Registers) (k : Field) (v : Word) :
    unitRegisters u (r.setField k v) = unitRegisters u r := by
  cases u with
  | hdr => exact absurd rfl h
  | crc => rw [unitRegisters, unitRegisters, regs_setField_crc]
  | xor => rw [unitRegisters, unitRegisters, regs_setField_key]

/-- A command writes no register of another unit. -/
theorem unitRegisters_effect_of_ne {i : Instr} {u : HwUnit} (h : u ≠ unitOf i) (r : Registers) :
    unitRegisters u (effect i r) = unitRegisters u r := by
  cases i with
  | hdrWrb off b =>
    cases hfield : fieldAtOffset (effectiveOffset off) with
    | none => rw [effect_hdrWrb_none hfield]
    | some k => rw [effect_hdrWrb_some hfield, unitRegisters_setField_of_ne_hdr h]
  | _ => revert h; cases u <;> simp [unitOf, unitRegisters, effect]

/-- What a command writes depends on the registers of its own unit alone. -/
theorem unitRegisters_effect_self (i : Instr) (r : Registers) :
    unitRegisters (unitOf i) (effect i r) = effect i (unitRegisters (unitOf i) r) := by
  cases i with
  | hdrWrb off b =>
    cases hfield : fieldAtOffset (effectiveOffset off) with
    | none => rw [effect_hdrWrb_none hfield, effect_hdrWrb_none hfield]
    | some k =>
      rw [effect_hdrWrb_some hfield, effect_hdrWrb_some hfield, unitOf, unitRegisters_hdr_setField,
        unitRegisters_hdr_getField]
  | _ => rfl

/-- What a command answers depends on the registers of its own unit alone. -/
theorem answer_unitRegisters (i : Instr) (r : Registers) : answer i (unitRegisters (unitOf i) r) = answer i r := by
  cases i with
  | hdrRdf k => exact congrArg okWord (unitRegisters_hdr_getField r k)
  | hdrRdb off => simp only [answer, unitOf, image_congr (unitRegisters_hdr_getField r)]
  | _ => rfl

/-- A command of another unit, performed first, does not change the answer. -/
theorem answer_effect_of_ne {i j : Instr} (h : unitOf i ≠ unitOf j) (r : Registers) :
    answer i (effect j r) = answer i r := by
  rw [← answer_unitRegisters, unitRegisters_effect_of_ne h, answer_unitRegisters]

/-- On the registers of i's unit, j's effect goes unnoticed before and after i's. -/
theorem unitRegisters_effect_comm {i j : Instr} (h : unitOf i ≠ unitOf j) (r : Registers) :
    unitRegisters (unitOf i) (effect j (effect i r)) = unitRegisters (unitOf i) (effect i (effect j r)) := by
  rw [unitRegisters_effect_of_ne h, unitRegisters_effect_self, unitRegisters_effect_self,
    unitRegisters_effect_of_ne h]

theorem effect_comm {i j : Instr} (h : unitOf i ≠ unitOf j) (r : Registers) :
    effect j (effect i r) = effect i (effect j r) := by
  refine eq_of_unitRegisters_eq fun u => ?_
  by_cases hi : u = unitOf i
  · rw [hi]
    exact unitRegisters_effect_comm h r
  · by_cases hj : u = unitOf j
    · rw [hj]
      exact (unitRegisters_effect_comm h.symm r).symm
    · rw [unitRegisters_effect_of_ne hj, unitRegisters_effect_of_ne hi, unitRegisters_effect_of_ne hi,
        unitRegisters_effect_of_ne hj]

/-- Two commands of a unit whose order matters from reset on: an initialisation and an update of the CRC, or
two writes of one register. -/
def orderedPair : HwUnit → Instr × Instr
  | .crc => (.crcInit, .crcUpd 0x61#8)
  | .hdr => (.hdrSig 1#32, .hdrSig 2#32)
  | .xor => (.keySet 1#8, .keySet 2#8)

theorem unitOf_orderedPair (u : HwUnit) : unitOf (orderedPair u).1 = u ∧ unitOf (orderedPair u).2 = u := by
  cases u <;> decide

theorem orderedPair_order_matters (u : HwUnit) :
    effect (orderedPair u).2 (effect (orderedPair u).1 Registers.reset) ≠
      effect (orderedPair u).1 (effect (orderedPair u).2 Registers.reset) := by
  cases u <;> decide

/-- Settles O58: across units neither command sees the other (`answer_effect_of_ne`, `effect_comm`); within each
unit, `orderedPair` from reset. -/
theorem unitsCommute : Obligations.UnitsCommute := by
  refine ⟨fun i j s h => ?across, fun u => ?within⟩
  case across =>
    have hij := issueAll_pair i j s
    have hji := issueAll_pair j i s
    rw [answer_effect_of_ne h.symm] at hij
    rw [answer_effect_of_ne h] at hji
    exact ⟨_, _, _, _, hij, hji, effect_comm h s.regs, rfl⟩
  case within =>
    obtain ⟨hfirst, hsecond⟩ := unitOf_orderedPair u
    exact ⟨_, _, State.reset, _, _, _, _, hfirst, hsecond, issueAll_pair .., issueAll_pair ..,
      orderedPair_order_matters u⟩

end Sys2Proof.Proofs.ResetAndHazards
end

section
/-! PROOFS. Encoding and decoding as inverses of each other (spec/30_encoding.md sections 1, 3 and 6). -/

namespace Sys2Proof.Proofs.EncodeDecode

open Sys2Proof.Machine Sys2Proof.Laws
open Sys2Proof.Proofs.HeaderImage Sys2Proof.Proofs.DecodeOutcomes

/-- An illegal offset passes the decoder's first two checks, for the encoder writes an assigned opcode and zeros
in the reserved bits, and fails the third (R48). -/
theorem decode_encode_of_not_wf {i : Instr} (h : i.wf = false) : decode (encode i) = .error .range := by
  refine decode_eq_error_range_iff.mpr ⟨opOfInstr i, rfl, argOfInstr_reserved i, ?_⟩
  rwa [instrOf_argOfInstr]

/-- Settles O2: a legal instruction passes all three checks of the decoder, any other fails the last. -/
theorem decodeInvertsEncode : Obligations.DecodeInvertsEncode :=
  ⟨fun _ => decode_encode_of_wf, fun _ => decode_encode_of_not_wf⟩

theorem encode_instrOf {o : Op} {arg : Word} (h : arg &&& reservedBits (opFormat o) = 0#32) :
    encode (instrOf o arg) = commandWord (opCode o) arg := by
  rw [encode, opOfInstr_instrOf, argOfInstr_instrOf h]

/-- Settles O3: a decoded word is its opcode above an operand word with the reserved bits zero
(`decode_instr_inv`), and that is what the encoder writes (`encode_instrOf`). -/
theorem legalCommandHasOneWord : Obligations.LegalCommandHasOneWord := by
  intro cmd i h
  obtain ⟨o, hcmd, hreserved, rfl, hwf⟩ := decode_instr_inv h
  exact ⟨(encode_instrOf hreserved).trans hcmd.symm, hwf⟩

/-- Settles O1: the six legal words are encodings, and the three erroneous ones each fail one check. -/
theorem workedWordsDecode : Obligations.WorkedWordsDecode :=
  ⟨decode_encode_of_wf (i := .crcUpd 0x61#8) rfl, decode_encode_of_wf (i := .hdrSig 0x4D524C41#32) rfl,
    decode_encode_of_wf (i := .hdrRdf .hsz) rfl, decode_encode_of_wf (i := .hdrRdb 511#16) rfl,
    decode_encode_of_wf (i := .hdrWrb 3#16 0x4D#8) rfl, decode_encode_of_wf (i := .keySet 0xB3#8) rfl,
    by decide, by decide, by decide⟩

end Sys2Proof.Proofs.EncodeDecode
end

section
/-! PROOFS. Steps and runs (spec/20_memory.md R39; spec/70_reset_and_hazards.md R125, R135): what one input of the
host does, that each is taken in one step and answered once if it is a command, the two invariants that every
step keeps, and several blocks side by side. -/

namespace Sys2Proof.Proofs.StepsAndRuns

open Sys2Proof.Machine Sys2Proof.Laws
open Sys2Proof.Proofs.DecodeOutcomes Sys2Proof.Proofs.HdrUnit

/-! ## What one input does -/

/-- The registers after an input. -/
def inputEffect (x : Input) (r : Registers) : Registers :=
  match x with
  | .reset => Registers.reset
  | .command cmd =>
    match decode cmd with
    | .instr i => effect i r
    | .error _ => r

/-- The response to a command word. -/
def wordAnswer (cmd : CmdWord) (r : Registers) : Response :=
  match decode cmd with
  | .instr i => answer i r
  | .error e => errorResponse e

/-- The responses to an input: one to a command, none to a reset (R45, R125). -/
def inputAnswers (x : Input) (r : Registers) : List Response :=
  match x with
  | .reset => []
  | .command cmd => [wordAnswer cmd r]

theorem step_of_no_input {s : State} (h : s.inputs = []) : step s = .next s := by
  rw [step, takeInput, h]

/-- A step takes the next input, whatever comes after it. -/
theorem step_of_input {s : State} {x : Input} {rest : List Input} (h : s.inputs = x :: rest) :
    step s = .next { regs := inputEffect x s.regs, inputs := rest,
                     responses := s.responses ++ inputAnswers x s.regs } := by
  rw [step, takeInput, h]
  cases x with
  | reset => simp [applyReset, inputEffect, inputAnswers]
  | command cmd =>
    cases hdecode : decode cmd with
    | instr i => simp [hdecode, exec_eq, inputEffect, inputAnswers, wordAnswer]
    | error e => simp [hdecode, State.record, inputEffect, inputAnswers, wordAnswer]

/-- Settles O22: the state is the one without the word, with the word presented to it. -/
theorem stepRunsDecodedInstruction : Obligations.StepRunsDecodedInstruction := by
  intro cmd i s rest hnext hdecode
  have hpresent : s = State.present { s with inputs := rest } cmd := by rw [State.present, ← hnext]
  exact (congrArg step hpresent).trans (step_present_of_instr hdecode _)

/-- Settles O24: nothing to take (`step_of_no_input`), or one input to take (`step_of_input`). -/
theorem everyStepCompletes : Obligations.EveryStepCompletes := by
  intro s
  cases hin : s.inputs with
  | nil => exact ⟨s, step_of_no_input hin, nofun, nofun, fun _ => rfl⟩
  | cons x rest =>
    refine ⟨_, step_of_input hin, ?command, ?reset, nofun⟩
    case command =>
      rintro cmd _ ⟨⟩
      exact ⟨rfl, wordAnswer cmd s.regs, rfl⟩
    case reset =>
      rintro _ ⟨⟩
      exact ⟨rfl, List.append_nil _⟩

/-! ## Runs -/

/-- The registers after several inputs. -/
def inputsEffect : List Input → Registers → Registers
  | [], r => r
  | x :: xs, r => inputsEffect xs (inputEffect x r)

/-- The responses to several inputs. -/
def inputsAnswers : List Input → Registers → List Response
  | [], _ => []
  | x :: xs, r => inputAnswers x r ++ inputsAnswers xs (inputEffect x r)

theorem inputsAnswers_length (xs : List Input) (r : Registers) :
    (inputsAnswers xs r).length = commandCount xs := by
  induction xs generalizing r with
  | nil => rfl
  | cons x xs ih =>
    rw [inputsAnswers, List.length_append, ih]
    cases x with
    | reset => exact Nat.zero_add _
    | command cmd => exact Nat.add_comm 1 _

/-- A run takes one input a step; the inputs after those it takes are left, and do not change what it does. -/
theorem run_inputs_append (xs ys : List Input) (k : Nat) (s : State) :
    Host.Core.run core (xs.length + k) { s with inputs := xs ++ ys } =
      Host.Core.run core k { regs := inputsEffect xs s.regs, inputs := ys,
                             responses := s.responses ++ inputsAnswers xs s.regs } := by
  induction xs generalizing s with
  | nil => simp [inputsEffect, inputsAnswers]
  | cons x xs ih =>
    rw [List.length_cons, Nat.add_right_comm, run_succ_of_next (step_of_input (List.cons_append ..))]
    refine (ih { s with regs := inputEffect x s.regs
                        responses := s.responses ++ inputAnswers x s.regs }).trans ?_
    rw [List.append_assoc]
    rfl

/-- A run over exactly the inputs there are. -/
theorem run_inputs (xs : List Input) (s : State) :
    Host.Core.run core xs.length { s with inputs := xs } =
      .next { regs := inputsEffect xs s.regs, inputs := [],
              responses := s.responses ++ inputsAnswers xs s.regs } := by
  have h := run_inputs_append xs [] 0 s
  rwa [List.append_nil] at h

/-- Settles O25: `run_inputs`, with as many responses as commands (`inputsAnswers_length`). -/
theorem runAnswersEveryCommand : Obligations.RunAnswersEveryCommand := fun s =>
  ⟨_, run_inputs s.inputs s, rfl, _, rfl, inputsAnswers_length s.inputs s.regs⟩

/-- Settles O26: `run_inputs` for the first list alone, `run_inputs_append` for the two joined. -/
theorem runsCompose : Obligations.RunsCompose := fun regs xs ys rs =>
  ⟨_, run_inputs xs ⟨regs, xs, rs⟩, run_inputs_append xs ys ys.length ⟨regs, xs, rs⟩⟩

/-! ## The form of the responses (spec/30_encoding.md R56) -/

theorem answer_wf (i : Instr) (r : Registers) : (answer i r).wf = true := by
  cases i with
  | hdrRdb off => simp only [answer]; split <;> rfl
  | hdrWrb off b => simp only [answer]; split <;> rfl
  | _ => rfl

theorem errorResponse_wf (e : CommandError) : (errorResponse e).wf = true := by
  cases e <;> rfl

theorem inputAnswers_wf (x : Input) (r : Registers) : ∀ a ∈ inputAnswers x r, a.wf = true := by
  cases x with
  | reset => exact List.forall_mem_nil _
  | command cmd =>
    refine List.forall_mem_singleton.mpr ?_
    rw [wordAnswer]
    cases decode cmd with
    | instr i => exact answer_wf i r
    | error e => exact errorResponse_wf e

/-- Settles O29: a step adds the answers to the input it takes, which have the form. -/
theorem stepKeepsHistoryForm : Obligations.StepKeepsHistoryForm := by
  intro s t hwf hstep
  cases hin : s.inputs with
  | nil =>
    obtain rfl := Host.Outcome.next.inj ((step_of_no_input hin).symm.trans hstep)
    exact hwf
  | cons x rest =>
    obtain rfl := Host.Outcome.next.inj ((step_of_input hin).symm.trans hstep)
    exact List.forall_mem_append.mpr ⟨hwf, inputAnswers_wf x s.regs⟩

/-! ## header_size (spec/10_state.md R18, spec/41_header.md R77) -/

/-- The only command that could leave another value than 0x200 is a byte write at offsets 8 to 11. -/
theorem effect_hhsz_eq_fresh {cmd : CmdWord} {i : Instr} (hdecode : decode cmd = .instr i)
    (hno : writesHeaderSizeByte cmd = false) {r : Registers} (h : r.hhsz = Config.freshHeaderSize) :
    (effect i r).hhsz = Config.freshHeaderSize := by
  obtain hsame | ⟨-, hfresh⟩ | ⟨off, b, rfl, hge, hle⟩ := effect_hhsz_cases i r
  · exact hsame.trans h
  · exact hfresh
  · simp [writesHeaderSizeByte, hdecode, hge, hle] at hno

theorem inputEffect_hhsz_eq_fresh {x : Input} (hno : ∀ cmd, .command cmd = x → writesHeaderSizeByte cmd = false)
    {r : Registers} (h : r.hhsz = Config.freshHeaderSize) :
    (inputEffect x r).hhsz = Config.freshHeaderSize := by
  cases x with
  | reset => rfl
  | command cmd =>
    rw [inputEffect]
    cases hdecode : decode cmd with
    | instr i => exact effect_hhsz_eq_fresh hdecode (hno cmd rfl) h
    | error e => exact h

/-- Settles O30: the input that a step takes is none of those writes, and the inputs to come are fewer. -/
theorem stepKeepsHeaderSize : Obligations.StepKeepsHeaderSize := by
  rintro s t ⟨hfresh, hno⟩ hstep
  cases hin : s.inputs with
  | nil =>
    obtain rfl := Host.Outcome.next.inj ((step_of_no_input hin).symm.trans hstep)
    exact ⟨hfresh, hno⟩
  | cons x rest =>
    obtain rfl := Host.Outcome.next.inj ((step_of_input hin).symm.trans hstep)
    simp only [hin, List.mem_cons, or_imp, forall_and] at hno
    obtain ⟨hnext, hrest⟩ := hno
    exact ⟨inputEffect_hhsz_eq_fresh hnext hfresh, hrest⟩

/-- Settles O31: at reset no response is given yet (log 2), and `HHSZ` is 0x200 (R26). -/
theorem invariantsHoldAtReset : Obligations.InvariantsHoldAtReset :=
  ⟨fun _ => List.forall_mem_nil _, fun _ hno => ⟨rfl, hno⟩⟩

/-! ## Instances (spec/00_scope.md R11) -/

/-- Settles O59: the chosen block makes its own step, and its place in the list is the only one set. -/
theorem instancesIndependent : Obligations.InstancesIndependent := by
  intro blocks k
  obtain ⟨t, hstep, -⟩ := everyStepCompletes blocks[k]
  have hset : stepInstance blocks k = .next (blocks.set k t) := by rw [stepInstance, hstep]
  exact ⟨_, t, hset, List.length_set, hstep, List.getElem?_set_self k.isLt,
    fun j hj => List.getElem?_set_ne hj.symm⟩

end Sys2Proof.Proofs.StepsAndRuns
end

section
/-! PROOFS. Which registers each command writes and which it reads (spec/10_state.md R20), and the frames of the
commands, in the registers and in the header image. -/

namespace Sys2Proof.Proofs.Frames

open Sys2Proof.Machine Sys2Proof.Laws
open Sys2Proof.Proofs.HeaderImage Sys2Proof.Proofs.HdrUnit Sys2Proof.Proofs.XorUnit

/-! ## The registers by name -/

theorem fieldsAt_of_none {off : Offset} (h : fieldAtOffset (effectiveOffset off) = none) :
    fieldsAt off = [] := by
  rw [fieldsAt, h]

theorem fieldsAt_of_some {off : Offset} {k : Field} (h : fieldAtOffset (effectiveOffset off) = some k) :
    fieldsAt off = [.field k] := by
  rw [fieldsAt, h]

theorem crc_not_mem_fieldsAt (off : Offset) : RegName.crc ∉ fieldsAt off := by
  cases h : fieldAtOffset (effectiveOffset off) with
  | none => simp [fieldsAt_of_none h]
  | some k => simp [fieldsAt_of_some h]

/-- KEY is read zero-extended, and its byte can be taken back. -/
theorem key_eq_of_read_eq {r r' : Registers} (h : r.read .key = r'.read .key) : r.key = r'.key := by
  have hbyte := congrArg byteOperand h
  rwa [Registers.read, Registers.read, zext32, zext32, byteOperand_zext, byteOperand_zext] at hbyte

theorem read_setField_of_ne {n : RegName} {k : Field} (h : n ≠ .field k) (r : Registers) (v : Word) :
    (r.setField k v).read n = r.read n := by
  cases n with
  | crc => exact regs_setField_crc r k v
  | key => exact congrArg zext32 (regs_setField_key r k v)
  | field k' => exact regs_setField_getField_ne r v fun hk => h (congrArg RegName.field hk)

/-! ## What a command writes -/

/-- `HDR.NEW` is four field writes. -/
theorem effect_hdrNew (r : Registers) :
    effect .hdrNew r =
      (((r.setField .sig 0#32).setField .csz 0#32).setField .hsz Config.freshHeaderSize).setField .chk 0#32 := rfl

theorem effect_read_of_not_mem {i : Instr} {n : RegName} (h : n ∉ writtenBy i) (r : Registers) :
    (effect i r).read n = r.read n := by
  cases i with
  | crcInit | crcUpd b =>
    cases n with
    | crc => exact absurd (List.mem_singleton_self _) h
    | _ => rfl
  | keySet b =>
    cases n with
    | key => exact absurd (List.mem_singleton_self _) h
    | _ => rfl
  | hdrNew =>
    simp only [writtenBy, List.mem_cons, List.not_mem_nil, or_false, not_or] at h
    obtain ⟨hsig, hcsz, hhsz, hchk⟩ := h
    rw [effect_hdrNew, read_setField_of_ne hchk, read_setField_of_ne hhsz, read_setField_of_ne hcsz,
      read_setField_of_ne hsig]
  | hdrSig w | hdrCsz w | hdrChk w => exact read_setField_of_ne (List.ne_of_not_mem_cons h) r w
  | hdrWrb off b =>
    rw [writtenBy] at h
    cases hfield : fieldAtOffset (effectiveOffset off) with
    | none => rw [effect_hdrWrb_none hfield]
    | some k =>
      rw [fieldsAt_of_some hfield] at h
      rw [effect_hdrWrb_some hfield, read_setField_of_ne (List.ne_of_not_mem_cons h)]
  | crcFin | hdrRdf k | hdrRdb off | xorB b => rfl

theorem effect_getField_of_not_mem {i : Instr} {k : Field} (h : .field k ∉ writtenBy i) (r : Registers) :
    (effect i r).getField k = r.getField k := effect_read_of_not_mem h r

theorem effect_crc_of_not_mem {i : Instr} (h : .crc ∉ writtenBy i) (r : Registers) :
    (effect i r).crc = r.crc := effect_read_of_not_mem h r

theorem effect_key_of_not_mem {i : Instr} (h : .key ∉ writtenBy i) (r : Registers) :
    (effect i r).key = r.key := key_eq_of_read_eq (effect_read_of_not_mem h r)

/-- A command that is answered with an error writes nothing. -/
theorem effect_of_answer_status_ne_ok {i : Instr} {r : Registers} (h : (answer i r).status ≠ .ok) :
    effect i r = r := by
  have hwf : i.wf = false := by
    rw [Bool.eq_false_iff]
    exact fun hwf => h (answer_status_of_wf hwf r)
  have hexec := exec_next_inv (exec_of_not_wf hwf ⟨r, [], []⟩)
  exact (congrArg State.regs hexec).symm

/-! ## What a command reads -/

/-- An image byte depends on the field at its offset alone. -/
theorem image_congr_field {r r' : Registers} {a : Nat}
    (h : ∀ k, fieldAtOffset a = some k → r.getField k = r'.getField k) : image r a = image r' a := by
  cases hfield : fieldAtOffset a with
  | none => simp only [image, hfield]
  | some k => rw [image_field hfield, image_field hfield, h k hfield]

theorem getField_eq_of_agreeOn_fieldsAt {r r' : Registers} {off : Offset} (h : r.agreeOn r' (fieldsAt off))
    {k : Field} (hfield : fieldAtOffset (effectiveOffset off) = some k) : r.getField k = r'.getField k := by
  rw [fieldsAt_of_some hfield] at h
  exact h (.field k) (List.mem_singleton_self _)

/-- A command's answer depends on the registers it reads alone. -/
theorem answer_congr {i : Instr} {r r' : Registers} (h : r.agreeOn r' (readBy i)) : answer i r = answer i r' := by
  cases i with
  | crcFin =>
    have hcrc : r.crc = r'.crc := h .crc (List.mem_singleton_self _)
    simp only [answer, hcrc]
  | hdrRdf k =>
    have hfield : r.getField k = r'.getField k := h (.field k) (List.mem_singleton_self _)
    simp only [answer, hfield]
  | hdrRdb off =>
    have himage := image_congr_field fun k => getField_eq_of_agreeOn_fieldsAt (k := k) h
    simp only [answer, himage]
  | xorB b =>
    have hkey : r.key = r'.key := key_eq_of_read_eq (h .key (List.mem_singleton_self _))
    simp only [answer, hkey]
  | _ => rfl

/-- What a command leaves in the registers it writes depends on those and the ones it reads alone: on CRC
for `CRC.UPD`, on the field of the lane for `HDR.WRB`, on none for the others. -/
theorem effect_congr {i : Instr} {r r' : Registers} (h : r.agreeOn r' (readBy i ++ writtenBy i)) :
    (effect i r).agreeOn (effect i r') (writtenBy i) := by
  cases i with
  | crcInit | hdrSig w | hdrCsz w | hdrChk w | keySet b => exact List.forall_mem_singleton.mpr rfl
  | crcUpd b =>
    have hcrc : r.crc = r'.crc := h .crc (List.mem_cons_self ..)
    exact List.forall_mem_singleton.mpr (congrArg (crcByte · b) hcrc)
  | hdrNew =>
    exact List.forall_mem_cons.mpr ⟨rfl, List.forall_mem_cons.mpr ⟨rfl, List.forall_mem_cons.mpr ⟨rfl,
      List.forall_mem_singleton.mpr rfl⟩⟩⟩
  | hdrWrb off b =>
    rw [writtenBy]
    cases hfield : fieldAtOffset (effectiveOffset off) with
    | none =>
      rw [fieldsAt_of_none hfield]
      exact List.forall_mem_nil _
    | some k =>
      have hold : r.getField k = r'.getField k := getField_eq_of_agreeOn_fieldsAt h hfield
      rw [fieldsAt_of_some hfield, effect_hdrWrb_some hfield, effect_hdrWrb_some hfield, hold]
      exact List.forall_mem_singleton.mpr
        ((regs_setField_getField r k _).trans (regs_setField_getField r' k _).symm)
  | crcFin | hdrRdf k | hdrRdb off | xorB b => exact List.forall_mem_nil _

/-- Settles O20: the four clauses are `effect_read_of_not_mem`, `answer_congr`, `effect_congr` and
`effect_of_answer_status_ne_ok`, for a command's next state is its effect and its answer. -/
theorem registerReadWriteTable : Obligations.RegisterReadWriteTable := by
  refine ⟨fun i s t h n hn => ?writes, fun i s s' t t' h h' hagree => ?answers,
    fun i s s' t t' h h' hagree => ?values, fun i s t r h hresponse hstatus => ?errors⟩
  all_goals obtain rfl := exec_next_inv h
  case writes => exact effect_read_of_not_mem hn s.regs
  case answers =>
    obtain rfl := exec_next_inv h'
    exact ⟨_, rfl, congrArg (s'.responses ++ [·]) (answer_congr hagree).symm⟩
  case values =>
    obtain rfl := exec_next_inv h'
    exact effect_congr hagree
  case errors =>
    obtain rfl : answer i s.regs = r := List.singleton_inj.mp (List.append_cancel_left hresponse)
    exact effect_of_answer_status_ne_ok hstatus

/-! ## Frames -/

theorem crc_not_mem_writtenBy {i : Instr} (hinit : i ≠ .crcInit) (hupd : ∀ b, i ≠ .crcUpd b) :
    .crc ∉ writtenBy i := by
  cases i with
  | crcInit => exact absurd rfl hinit
  | crcUpd b => exact absurd rfl (hupd b)
  | hdrWrb off b => exact crc_not_mem_fieldsAt off
  | _ => simp [writtenBy]

theorem memRead_congr_field {s t : State} {a : Nat}
    (h : ∀ k, fieldAtOffset a = some k → t.regs.getField k = s.regs.getField k) :
    memRead a t = memRead a s := by
  rw [memRead, memRead, image_congr_field h]

/-- Settles O17: none of the seven names a field in the table's column of writes. -/
theorem frameStoresNoHeaderByte : Obligations.FrameStoresNoHeaderByte := by
  intro i s t hi hexec
  obtain rfl := exec_next_inv hexec
  have hnone : ∀ k, .field k ∉ writtenBy i := by
    obtain rfl | ⟨b, rfl⟩ | rfl | ⟨k, rfl⟩ | ⟨off, rfl⟩ | ⟨b, rfl⟩ | ⟨b, rfl⟩ := hi <;> simp [writtenBy]
  have hfields : ∀ k, (effect i s.regs).getField k = s.regs.getField k := fun k =>
    effect_getField_of_not_mem (hnone k) s.regs
  exact ⟨fun hinit hupd => effect_crc_of_not_mem (crc_not_mem_writtenBy hinit hupd) s.regs,
    fun hset => effect_key_of_ne_keySet hset s.regs, hfields, fun a => memRead_congr hfields a, rfl, _, rfl⟩

/-- Settles O18: each of the first three is one field write, and `HDR.NEW` writes fields only; an image byte
depends on the field at its offset alone (`memRead_congr_field`). -/
theorem frameHeaderWordWrites : Obligations.FrameHeaderWordWrites := by
  intro i s t hexec
  obtain rfl := exec_next_inv hexec
  refine ⟨fun w k hi => ?oneField, ?newHeader⟩
  case oneField =>
    have hwrites : writtenBy i = [.field k] := by
      obtain ⟨rfl, rfl⟩ | ⟨rfl, rfl⟩ | ⟨rfl, rfl⟩ := hi <;> rfl
    have hanswer : answer i s.regs = okNone := by
      obtain ⟨rfl, rfl⟩ | ⟨rfl, rfl⟩ | ⟨rfl, rfl⟩ := hi <;> rfl
    have hfields : ∀ k', k' ≠ k → (effect i s.regs).getField k' = s.regs.getField k' := fun k' hne =>
      effect_getField_of_not_mem (by simpa [hwrites] using hne) s.regs
    exact ⟨effect_crc_of_not_mem (by simp [hwrites]) s.regs, effect_key_of_not_mem (by simp [hwrites]) s.regs,
      hfields, fun a hoff => memRead_congr_field fun k' hk' => hfields k' fun hk => hoff (hk ▸ hk'), rfl,
      congrArg (s.responses ++ [·]) hanswer⟩
  case newHeader =>
    rintro rfl
    exact ⟨rfl, rfl, fun a hnone => memRead_congr_field (by simp [hnone]), rfl, rfl⟩

/-- The image after a byte write: a byte at its offset in the fields is the one written, any other is as before. -/
theorem image_effect_hdrWrb (off : Offset) (b : Byte) (r : Registers) {a : Nat} (h : a < 16) :
    image (effect (.hdrWrb off b) r) a = if a = effectiveOffset off then b else image r a := by
  cases hfield : fieldAtOffset (effectiveOffset off) with
  | none =>
    have hne : a ≠ effectiveOffset off := by
      rintro rfl
      obtain ⟨k, hk⟩ := fieldAtOffset_lt h
      cases hfield.symm.trans hk
    rw [effect_hdrWrb_none hfield, if_neg hne]
  | some k => rw [effect_hdrWrb_some hfield, image_setByteLane r hfield]

theorem image_effect_hdrWrb_of_ne {off : Offset} {a : Nat} (h : a ≠ effectiveOffset off) (b : Byte)
    (r : Registers) : image (effect (.hdrWrb off b) r) a = image r a := by
  by_cases h16 : a < 16
  · rw [image_effect_hdrWrb off b r h16, if_neg h]
  · rw [image_padding _ (Nat.not_lt.mp h16), image_padding _ (Nat.not_lt.mp h16)]

/-- Settles O19: `HDR.WRB` writes at most the field at its offset, and in the image the byte there alone
(`image_effect_hdrWrb_of_ne`). -/
theorem frameImageByteWrite : Obligations.FrameImageByteWrite := by
  intro off b s t hexec
  obtain rfl := exec_next_inv hexec
  refine ⟨effect_crc_of_not_mem (i := .hdrWrb off b) (crc_not_mem_fieldsAt off) s.regs,
    effect_key_of_ne_keySet (i := .hdrWrb off b) nofun s.regs, fun a ha => ?image,
    fun k hk => effect_hdrWrb_getField_ne hk b s.regs, rfl, _, rfl⟩
  rw [memRead, memRead, image_effect_hdrWrb_of_ne ha]

end Sys2Proof.Proofs.Frames
end

section
/-! PROOFS. The header as bytes (spec/41_header.md R79, spec/43_codec.md R94): parsing by byte writes in any order,
and pack and parse as inverses of each other. -/

namespace Sys2Proof.Proofs.HeaderParsing

open Sys2Proof.Machine Sys2Proof.Laws
open Sys2Proof.Proofs.HeaderImage Sys2Proof.Proofs.CodecFunctions Sys2Proof.Proofs.CodecExpansions
open Sys2Proof.Proofs.XorUnit Sys2Proof.Proofs.Frames

/-! ## Byte writes in any order (R79) -/

/-- The byte writes of `Obligations.ParseByByteWritesAnyOrder`: byte i of d to offset i, for each i in turn. -/
def byteWrites (d : List Byte) (order : List Nat) : List Instr :=
  order.map fun i => .hdrWrb (BitVec.ofNat 16 i) (d.getD i 0#8)

theorem wf_byteWrites (d : List Byte) {order : List Nat} (h : ∀ i ∈ order, i < 512) :
    ∀ c ∈ byteWrites d order, c.wf = true :=
  List.forall_mem_map.mpr fun i hi => offsetLegal_ofNat (h i hi)

/-- CRC and KEY stand in no byte of the image. -/
theorem effects_byteWrites_crc_key (d : List Byte) (order : List Nat) (r : Registers) :
    (effects (byteWrites d order) r).crc = r.crc ∧ (effects (byteWrites d order) r).key = r.key := by
  induction order generalizing r with
  | nil => exact ⟨rfl, rfl⟩
  | cons i order ih =>
    obtain ⟨hcrc, hkey⟩ := ih (effect (.hdrWrb (BitVec.ofNat 16 i) (d.getD i 0#8)) r)
    exact ⟨hcrc.trans (effect_crc_of_not_mem (i := .hdrWrb _ _) (crc_not_mem_fieldsAt _) r),
      hkey.trans (effect_key_of_ne_keySet (i := .hdrWrb _ _) nofun r)⟩

theorem image_effects_byteWrites_of_not_mem (d : List Byte) {order : List Nat} (h : ∀ i ∈ order, i < 512)
    {a : Nat} (ha : a ∉ order) (r : Registers) : image (effects (byteWrites d order) r) a = image r a := by
  induction order generalizing r with
  | nil => rfl
  | cons i order ih =>
    obtain ⟨hi, horder⟩ := List.forall_mem_cons.mp h
    obtain ⟨hne, hnot⟩ := List.ne_and_not_mem_of_not_mem_cons ha
    refine (ih horder hnot _).trans (image_effect_hdrWrb_of_ne ?_ _ r)
    rwa [effectiveOffset_ofNat hi]

/-- Every write to an offset writes the same byte, so it is the one that stands there in the end. -/
theorem image_effects_byteWrites_of_mem (d : List Byte) {order : List Nat} (h : ∀ i ∈ order, i < 512)
    {a : Nat} (h16 : a < 16) (ha : a ∈ order) (r : Registers) :
    image (effects (byteWrites d order) r) a = d.getD a 0#8 := by
  induction order generalizing r with
  | nil => cases ha
  | cons i order ih =>
    obtain ⟨hi, horder⟩ := List.forall_mem_cons.mp h
    by_cases hlater : a ∈ order
    · exact ih horder hlater _
    · obtain rfl : a = i := (List.mem_cons.mp ha).resolve_right hlater
      refine (image_effects_byteWrites_of_not_mem d horder hlater _).trans ?_
      rw [image_effect_hdrWrb _ _ r h16, if_pos (effectiveOffset_ofNat hi).symm]

/-- The registers are CRC, KEY and the sixteen field bytes of the image. -/
theorem registers_ext_image {r r' : Registers} (hcrc : r.crc = r'.crc) (hkey : r.key = r'.key)
    (himage : ∀ a < 16, image r a = image r' a) : r = r' := by
  refine registers_ext hcrc hkey fun k => word_ext_lanes fun j hj => ?_
  have hnumber : (numberOfField k).toNat < 4 := (numberOfField k).isLt
  have hlane := himage (4 * (numberOfField k).toNat + j) (by omega)
  rwa [image_lane r _ hj, image_lane r' _ hj, fieldOfNumber_numberOfField] at hlane

/-- The writes that begin `PARSE` are those of bytes 0 to 15 in order. -/
theorem headerWrites_eq_byteWrites {d : List Byte} (h : 16 ≤ d.length) :
    headerWrites d = byteWrites d (List.range 16) := by
  refine List.ext_getElem (by simp [headerWrites_length h, byteWrites]) fun i hi _ => ?_
  have hlt : i < d.length := by
    rw [headerWrites_length h] at hi
    omega
  simp [headerWrites, byteWrites, offsetsBelow, hlt]

/-- In whatever order the bytes of a header are written, the fields are those that `PARSE` leaves. -/
theorem effects_byteWrites {d : List Byte} (hlen : 16 ≤ d.length) {order : List Nat}
    (hlt : ∀ i ∈ order, i < 512) (hfields : ∀ a < 16, a ∈ order) (r : Registers) :
    effects (byteWrites d order) r = withHeader r (storedHeader d) := by
  obtain ⟨hcrc, hkey⟩ := effects_byteWrites_crc_key d order r
  rw [← effects_headerWrites hlen, headerWrites_eq_byteWrites hlen]
  obtain ⟨hcrc', hkey'⟩ := effects_byteWrites_crc_key d (List.range 16) r
  refine registers_ext_image (hcrc.trans hcrc'.symm) (hkey.trans hkey'.symm) fun a ha => ?_
  have hrange : ∀ i ∈ List.range 16, i < 512 := fun i hi => (List.mem_range.mp hi).trans (by decide)
  rw [image_effects_byteWrites_of_mem d hlt ha (hfields a ha),
    image_effects_byteWrites_of_mem d hrange ha (List.mem_range.mpr ha)]

/-- Settles O36: the writes are legal, and leave the fields of `effects_byteWrites`. -/
theorem parseByByteWritesAnyOrder : Obligations.ParseByByteWritesAnyOrder := by
  intro s d order h16 h512 hperm
  have hmem : ∀ i, i ∈ order ↔ i < d.length := fun i => hperm.mem_iff.trans List.mem_range
  have hlt : ∀ i ∈ order, i < 512 := fun i hi => ((hmem i).mp hi).trans_le h512
  have hfields : ∀ a < 16, a ∈ order := fun a ha => (hmem a).mpr (ha.trans_le h16)
  exact ⟨_, _, issueAll_of_wf (wf_byteWrites d hlt) s, effects_byteWrites h16 hlt hfields s.regs⟩

/-! ## pack and parse (R79, R94) -/

theorem storedHeader_pack (sig csz hsz chk : Word) :
    storedHeader (pack sig csz hsz chk) = { sig := sig, csz := csz, hsz := hsz, chk := chk } := by
  have hsig : le32dec (slice (pack sig csz hsz chk) 0 4) = sig := le32dec_le32 sig
  have hcsz : le32dec (slice (pack sig csz hsz chk) 4 8) = csz := le32dec_le32 csz
  have hhsz : le32dec (slice (pack sig csz hsz chk) 8 12) = hsz := le32dec_le32 hsz
  have hchk : le32dec (slice (pack sig csz hsz chk) 12 16) = chk := le32dec_le32 chk
  rw [storedHeader, hsig, hcsz, hhsz, hchk]

theorem take_append_slice {i j : Nat} (h : i ≤ j) (l : List Byte) : l.take i ++ slice l i j = l.take j := by
  rw [slice, ← List.take_add, Nat.add_sub_cancel' h]

theorem le32_le32dec_slice {d : List Byte} {i : Nat} (h : i + 4 ≤ d.length) :
    le32 (le32dec (slice d i (i + 4))) = slice d i (i + 4) :=
  le32_le32dec ((slice_length h).trans (Nat.add_sub_cancel_left i 4))

/-- The four stored words are the first sixteen bytes. -/
theorem pack_storedHeader {d : List Byte} (h : 16 ≤ d.length) :
    pack (storedHeader d).sig (storedHeader d).csz (storedHeader d).hsz (storedHeader d).chk =
      d.take 16 ++ zeros 496 := by
  have hsig : le32 (storedHeader d).sig = d.take 4 := le32_le32dec_slice (i := 0) (by omega)
  have hcsz : le32 (storedHeader d).csz = slice d 4 8 := le32_le32dec_slice (by omega)
  have hhsz : le32 (storedHeader d).hsz = slice d 8 12 := le32_le32dec_slice (by omega)
  have hchk : le32 (storedHeader d).chk = slice d 12 16 := le32_le32dec_slice (by omega)
  rw [pack, hsig, hcsz, hhsz, hchk, take_append_slice (by decide), take_append_slice (by decide),
    take_append_slice (by decide), Config.padBytes]

/-- parse has a result for sixteen bytes and more, the stored header. -/
theorem parse_eq_some_iff {d : List Byte} {h : ParsedHeader} :
    parse d = some h ↔ 16 ≤ d.length ∧ storedHeader d = h := by
  by_cases hlen : 16 ≤ d.length
  · simp [parse_of_le hlen, hlen]
  · have hnone : parse d = none := if_pos (Nat.not_le.mp hlen)
    simp [hnone, hlen]

/-- Settles O37: `storedHeader_pack` one way and `pack_storedHeader` the other. -/
theorem packParseInverse : Obligations.PackParseInverse := by
  refine ⟨fun sig csz hsz chk => ?fields, fun d h hparse => ?bytes⟩
  case fields => exact parse_eq_some_iff.mpr ⟨by simp [pack_length], storedHeader_pack sig csz hsz chk⟩
  case bytes =>
    obtain ⟨hlen, rfl⟩ := parse_eq_some_iff.mp hparse
    exact pack_storedHeader hlen

end Sys2Proof.Proofs.HeaderParsing
end

section
/-! PROOFS. More of the CRC unit's arithmetic (spec/40_crc.md): the most-significant-bit-first form as the mirror
image of the reflected one (R66; log 14), and the byte update as a bijection (R68). -/

namespace Sys2Proof.Proofs.CrcArithmetic

open Sys2Proof.Machine Sys2Proof.Laws Sys2Proof.Proofs.CrcUnit

/-! ## Reversed words -/

theorem getLsbD_reverse_of_lt {w : Nat} (x : BitVec w) {i : Nat} (h : i < w) :
    x.reverse.getLsbD i = x.getLsbD (w - 1 - i) := by
  rw [BitVec.getLsbD_reverse, BitVec.getMsbD_eq_getLsbD, decide_eq_true h, Bool.true_and]

theorem reverse_xor (x y : Word) : (x ^^^ y).reverse = x.reverse ^^^ y.reverse := by
  apply BitVec.eq_of_getLsbD_eq
  intro i hi
  simp only [BitVec.getLsbD_xor, getLsbD_reverse_of_lt _ hi]

theorem reverse_ushiftRight_one (x : Word) : (x >>> 1).reverse = x.reverse <<< 1 := by
  apply BitVec.eq_of_getLsbD_eq
  intro i hi
  rw [getLsbD_reverse_of_lt _ hi, BitVec.getLsbD_ushiftRight, BitVec.getLsbD_shiftLeft]
  by_cases h0 : i = 0
  · simp [h0]
  · have hpred : i - 1 < 32 := by omega
    have hbit : 1 + (32 - 1 - i) = 32 - 1 - (i - 1) := by omega
    have hge : ¬ i < 1 := by omega
    rw [getLsbD_reverse_of_lt _ hpred, hbit]
    simp [hi, hge]

/-- A byte in the low end, reversed, stands bit-reversed in the high end. -/
theorem reverse_zext32 (b : Byte) : (zext32 b).reverse = zext32 b.reverse <<< 24 := by
  apply BitVec.eq_of_getLsbD_eq
  intro i hi
  rw [getLsbD_reverse_of_lt _ hi, BitVec.getLsbD_shiftLeft, zext32, zext32, BitVec.getLsbD_setWidth,
    BitVec.getLsbD_setWidth]
  have hlow : 32 - 1 - i < 32 := by omega
  by_cases h : i < 24
  · have hhigh : b.getLsbD (32 - 1 - i) = false := BitVec.getLsbD_of_ge b _ (by omega)
    simp [h, hhigh]
  · have hsub : i - 24 < 8 := by omega
    have hsub32 : i - 24 < 32 := by omega
    have hbit : 8 - 1 - (i - 24) = 32 - 1 - i := by omega
    rw [getLsbD_reverse_of_lt b hsub, hbit]
    simp [hi, h, hsub32, hlow]

/-! ## Most significant bit first (R66) -/

theorem getLsbD_polyReflected :
    ∀ i, i < 32 → Config.polyReflected.getLsbD i = Config.polyNormal.getLsbD (31 - i) := by decide

theorem polyReflected_eq_reverse : Config.polyReflected = Config.polyNormal.reverse := by
  apply BitVec.eq_of_getLsbD_eq
  intro i hi
  rw [getLsbD_reverse_of_lt _ hi]
  exact getLsbD_polyReflected i hi

/-- The initial register is its own mirror image, for all its bits are 1. -/
theorem reverse_crcInit : Config.crcInit.reverse = Config.crcInit := by
  have hones : Config.crcInit = BitVec.allOnes 32 := rfl
  apply BitVec.eq_of_getLsbD_eq
  intro i hi
  have hmirror : 32 - 1 - i < 32 := by omega
  rw [getLsbD_reverse_of_lt _ hi, hones, BitVec.getLsbD_allOnes, BitVec.getLsbD_allOnes, decide_eq_true hi,
    decide_eq_true hmirror]

theorem reverse_crcBit (c : Word) : (crcBit c).reverse = crcMsbBit c.reverse := by
  have hpoly : Config.polyReflected.reverse = Config.polyNormal := by
    rw [polyReflected_eq_reverse, BitVec.reverse_reverse_eq]
  rw [crcBit, crcMsbBit, BitVec.msb_reverse]
  split
  · rw [reverse_xor, reverse_ushiftRight_one, hpoly]
  · exact reverse_ushiftRight_one c

theorem reverse_crcBits (n : Nat) (c : Word) :
    (crcBits n c).reverse = (List.range n).foldl (fun c _ => crcMsbBit c) c.reverse := by
  induction n with
  | zero => rfl
  | succ n ih => rw [crcBits_succ, reverse_crcBit, ih, List.range_succ, List.foldl_concat]

theorem reverse_crcByte (c : Word) (b : Byte) : (crcByte c b).reverse = crcMsbByte c.reverse b := by
  rw [crcTableFormIsBitForm, reverse_crcBits, reverse_xor, reverse_zext32, crcMsbByte]

theorem reverse_crcFold (data : List Byte) (c : Word) :
    (crcFold data c).reverse = data.foldl crcMsbByte c.reverse := by
  induction data generalizing c with
  | nil => rfl
  | cons b data ih => exact (ih (crcByte c b)).trans (congrArg (data.foldl crcMsbByte) (reverse_crcByte c b))

theorem crc32Msb_eq_crc32 (data : List Byte) : crc32Msb data = crc32 data :=
  calc crc32Msb data
    _ = (data.foldl crcMsbByte Config.crcInit.reverse).reverse ^^^ Config.crcXorOut := by
      rw [reverse_crcInit]
      rfl
    _ = crc32 data := by rw [← reverse_crcFold, BitVec.reverse_reverse_eq, crc32]

/-- Settles O40: the polynomials by their bits, and the checksum because the two forms keep registers that are
bit reversals of each other (`reverse_crcFold`). -/
theorem crcMsbFirstGivesSameChecksum : Obligations.CrcMsbFirstGivesSameChecksum :=
  ⟨polyReflected_eq_reverse, getLsbD_polyReflected, by decide, crc32Msb_eq_crc32⟩

/-! ## The byte update as a bijection (R68) -/

/-- The bit that a step shifts out can be read off the top bit, for the polynomial has that bit set. -/
theorem getLsbD_crcBit_top (c : Word) : (crcBit c).getLsbD 31 = c.getLsbD 0 := by
  have htop : (c >>> 1).getLsbD 31 = false := by
    rw [BitVec.getLsbD_ushiftRight]
    exact BitVec.getLsbD_of_ge c _ le_rfl
  have hpoly : Config.polyReflected.getLsbD 31 = true := by decide
  cases hlow : c.getLsbD 0 with
  | false => rw [crcBit_eq_ushiftRight hlow, htop]
  | true => rw [crcBit, hlow, if_pos rfl, BitVec.getLsbD_xor, htop, hpoly]; rfl

theorem eq_of_crcBit_eq_zero {c : Word} (h : crcBit c = 0#32) : c = 0#32 := by
  have hlow : c.getLsbD 0 = false := by rw [← getLsbD_crcBit_top, h, BitVec.getLsbD_zero]
  rw [crcBit_eq_ushiftRight hlow] at h
  apply BitVec.eq_of_getLsbD_eq
  intro i _
  rw [BitVec.getLsbD_zero]
  cases i with
  | zero => exact hlow
  | succ i =>
    have hbit := congrArg (BitVec.getLsbD · i) h
    rwa [BitVec.getLsbD_ushiftRight, Nat.add_comm, BitVec.getLsbD_zero] at hbit

/-- The step is linear (`crcBit_xor`), and only 0 goes to 0. -/
theorem crcBit_injective : Function.Injective crcBit := by
  intro x y h
  have hzero : crcBit (x ^^^ y) = 0#32 := by rw [crcBit_xor, h, BitVec.xor_self]
  exact BitVec.xor_eq_zero_iff.mp (eq_of_crcBit_eq_zero hzero)

theorem crcBits_injective (n : Nat) : Function.Injective (crcBits n) := by
  induction n with
  | zero => exact Function.injective_id
  | succ n ih => exact ih.comp crcBit_injective

theorem crcByte_injective (b : Byte) : Function.Injective fun c : Word => crcByte c b := by
  intro c c' h
  simp only [crcTableFormIsBitForm c b, crcTableFormIsBitForm c' b] at h
  exact (BitVec.xor_left_inj _).mp (crcBits_injective 8 h)

/-- Settles O41: the update is injective on a finite set, and 0 is fixed by evaluation. -/
theorem crcUpdateBijective : Obligations.CrcUpdateBijective :=
  ⟨fun b => Finite.injective_iff_bijective.mp (crcByte_injective b), by decide⟩

end Sys2Proof.Proofs.CrcArithmetic
end

section
/-! PROOFS. The composite operations from every state (spec/43_codec.md R98; spec/70_reset_and_hazards.md R129):
the commands of `CRAFT`, each operation's result as a function of its arguments alone, and the round trip through
two blocks. -/

namespace Sys2Proof.Proofs.CompositeResults

open Sys2Proof.Machine Sys2Proof.Laws
open Sys2Proof.Proofs.CodecFunctions Sys2Proof.Proofs.CodecExpansions Sys2Proof.Proofs.Errors

/-! ## CRAFT (R98) -/

/-- The commands of `CRAFT`, in the order that the model fixes (log 9). -/
def craftCommands (p : List Byte) (sig : Word) (key : Byte) : List Instr :=
  crc32Commands p ++ (packCommands sig (BitVec.ofNat 32 p.length) (crc32 p) ++ xortCommands p key)

theorem wf_craftCommands (p : List Byte) (sig : Word) (key : Byte) :
    ∀ i ∈ craftCommands p sig key, i.wf = true :=
  List.forall_mem_append.mpr
    ⟨wf_crc32Commands p, List.forall_mem_append.mpr ⟨wf_packCommands sig _ _, wf_xortCommands p key⟩⟩

theorem craftCommands_length (p : List Byte) (sig : Word) (key : Byte) :
    (craftCommands p sig key).length = 2 * p.length + 519 := by
  simp only [craftCommands, List.length_append, packCommands_length, crc32Commands, xortCommands,
    List.length_cons, List.length_map, List.length_nil]
  omega

/-- `CRAFT` writes all six registers, so nothing is left of those of the start. -/
theorem effects_craftCommands (p : List Byte) (sig : Word) (key : Byte) (r : Registers) :
    effects (craftCommands p sig key) r =
      { crc := crcFold p Config.crcInit, key := key, hsig := sig, hcsz := BitVec.ofNat 32 p.length,
        hhsz := Config.freshHeaderSize, hchk := crc32 p } := by
  simp only [craftCommands, effects_append, effects_crc32Commands, effects_packCommands, effects_xortCommands]

theorem runCraft_eq {p : List Byte} (hpos : 1 ≤ p.length) (hmax : p.length ≤ Config.maxLen) (sig : Word)
    (key : Byte) (s : State) :
    runCraft p sig key s =
      some (.ok (craftedContainer p sig key), stateAfter (craftCommands p sig key) s) := by
  have hne : p.length ≠ 0 := Nat.one_le_iff_ne_zero.mp hpos
  rw [runCraft, if_neg hne, if_neg (Nat.not_lt.mpr hmax)]
  simp only [runCrc32_eq, runPack_eq, runXort_eq, Option.bind_eq_bind, Option.bind_some, stateAfter_stateAfter]
  rfl

/-- Settles O47: no payload is refused before any command; otherwise `runCraft_eq`, with the registers of
`effects_craftCommands`. -/
theorem craftExpansionComputesCraft : Obligations.CraftExpansionComputesCraft := by
  refine fun p sig key s => ⟨?empty, fun hne hmax => ?payload⟩
  case empty =>
    rintro rfl
    exact ⟨rfl, runCraft_of_empty rfl sig key s⟩
  case payload =>
    have hpos : 1 ≤ p.length := List.length_pos_iff.mpr hne
    obtain ⟨rs, hexpansion⟩ := expansion_of_legal_commands (runCraft_eq hpos hmax sig key s)
      (effects_craftCommands p sig key s.regs) (craftCommands_length p sig key) (wf_craftCommands p sig key)
    exact ⟨_, rs, craft_eq_some_ok_iff.mpr ⟨hpos, hmax, rfl⟩, hexpansion⟩

/-! ## Results (R129) -/

theorem runParse_result (hdr : List Byte) (s : State) : (runParse hdr s).map Prod.fst = parse hdr := by
  by_cases h : 16 ≤ hdr.length
  · rw [runParse_eq h, parse_of_le h, Option.map_some]
  · have hshort : hdr.length < Config.fieldsBytes := Nat.not_le.mp h
    rw [runParse, parse, if_pos hshort, if_pos hshort, Option.map_none]

theorem runCraft_result (p : List Byte) (sig : Word) (key : Byte) (s : State) :
    (runCraft p sig key s).map Prod.fst = craft p sig key := by
  by_cases hmax : p.length ≤ Config.maxLen
  case neg =>
    have hlong := Nat.not_le.mp hmax
    rw [runCraft_of_maxLen_lt hlong, craft_eq_none_iff.mpr hlong, Option.map_none]
  by_cases hempty : p.length = 0
  · rw [runCraft_of_empty hempty, craft_eq_some_err_iff.mpr ⟨rfl, hempty⟩, Option.map_some]
  · have hpos : 1 ≤ p.length := Nat.one_le_iff_ne_zero.mpr hempty
    rw [runCraft_eq hpos hmax, craft_eq_some_ok_iff.mpr ⟨hpos, hmax, rfl⟩, Option.map_some]

theorem runUncraft_result (c : List Byte) (sig : Word) (key : Byte) (s : State) :
    (runUncraft c sig key s).map Prod.fst = some (uncraft c sig key) := by
  obtain ⟨t, rs, hrun, -⟩ := uncraftExpansionComputesUncraft c sig key s
  rw [hrun, Option.map_some]

/-- Settles O56: each operation's result is the function it computes, in which the state does not occur. -/
theorem resultsIndependentOfStartState : Obligations.ResultsIndependentOfStartState := by
  intro s s'
  refine ⟨fun data => ?crc32, fun data key => ?xort, fun sig csz chk => ?pack, fun hdr => ?parse,
    fun p sig key => ?craft, fun c sig key => ?uncraft⟩
  case crc32 => rw [runCrc32_eq, runCrc32_eq, Option.map_some, Option.map_some]
  case xort => rw [runXort_eq, runXort_eq, Option.map_some, Option.map_some]
  case pack => rw [runPack_eq, runPack_eq, Option.map_some, Option.map_some]
  case parse => rw [runParse_result, runParse_result]
  case craft => rw [runCraft_result, runCraft_result]
  case uncraft => rw [runUncraft_result, runUncraft_result]

/-! ## The round trip through two blocks -/

/-- Settles O50: `CRAFT` gives `craftedContainer` (`runCraft_eq`), `UNCRAFT` computes uncraft of it (O48), which
is the payload (R102). -/
theorem roundTripThroughTheBlock : Obligations.RoundTripThroughTheBlock := by
  intro p sig key s s' hpos hmax
  obtain ⟨t', rs, hrun, -⟩ := uncraftExpansionComputesUncraft (craftedContainer p sig key) sig key s'
  rw [uncraft_craftedContainer hpos] at hrun
  exact ⟨_, _, t', runCraft_eq hpos hmax sig key s, hrun⟩

end Sys2Proof.Proofs.CompositeResults
end
